-- ==== Sys2Proof/Word.lean ====
section
/-! DEFINITION. The words of the block: the 32-bit command and response word, and the fields of a command (R49, R51). -/

namespace Sys2Proof

/-- A command word, a response's data, and the 32-bit registers `TIME`, `RISE_TS`, `RAW`, `STAGED` (R13, R49). -/
abbrev Word := BitVec 32

/-- A 16-bit word: an endpoint register, and the immediate field `imm` (R13, R51). -/
abbrev Half := BitVec 16

/-- The 4-bit field `idx`: a channel index or a filter index, unsigned and used as is (R51, R55). -/
abbrev Index := BitVec 4

/-- The 8-bit two's-complement register `NVAL` (R13, R22). -/
abbrev NormWord := BitVec 8

end Sys2Proof
end

