-- ==== Sys2Proof/Config.lean ====
section
/-! DEFINITION. What is fixed when the block is built (R8, R10), the opaque constants that stand for the values the
spec leaves OPEN, and the opaque draws of NORM with unordered endpoints (R98). -/

namespace Sys2Proof

/-- `FILT_FMT`: the number format of a filter's running value (R10, R66). -/
inductive FiltFmt where
  | binary32
  | binary64
  | exact
deriving DecidableEq, Repr

/-- `ROUND_TIE`: how `round` resolves an exact half (R10, R68). -/
inductive RoundTie where
  | away
  | even
deriving DecidableEq, Repr

/-- `NORM_ROUND`: how the interpolator rounds its quotient (R10, R95). -/
inductive NormRound where
  | floor
  | trunc
  | nearest
deriving DecidableEq, Repr

/-- The build-time parameters that the rules leave to a configuration (R8, R10). `NCH` is the number of entries of
`chPresent` and `NFILT` the number of entries of `smooth`, so that a configuration cannot disagree with itself.
A weight is a `Fin 256`: R10's `0 <= SMOOTH[f] <= 255`. DESIGN CHOICE (log 2): the
sizes are the lists' lengths, no fields of their own. -/
structure Config where
  chPresent : List Bool
  smooth : List (Fin 256)
  rawDefault : Word
  filtFmt : FiltFmt
  roundTie : RoundTie
  normRound : NormRound
deriving DecidableEq, Repr

/-- `NCH` (R10). -/
def Config.nch (k : Config) : Nat := k.chPresent.length

/-- `NFILT` (R10). -/
def Config.nfilt (k : Config) : Nat := k.smooth.length

/-- `CH_PRESENT[c]`; false for an index that is no channel: there is no such pin (R10, R82). -/
def Config.present (k : Config) (c : Index) : Bool := k.chPresent.getD c.toNat false

/-- `SMOOTH[f]`, an integer in 0 .. 255 (R10). -/
def Config.weight (k : Config) (f : Index) : Nat := (k.smooth.getD f.toNat 0).val

/-- R10's constraints on `NCH` and `NFILT` (the weights' bound is in their type). -/
def Config.wf (k : Config) : Bool :=
  decide (1 ≤ k.nch) && decide (k.nch ≤ 16) && decide (1 ≤ k.nfilt) && decide (k.nfilt ≤ 16)

/-- `NCH - 1` of the block as it was built: OPEN in R10, so a constant without a value (log 3). -/
opaque Config.builtNchPred : Fin 16

/-- `NFILT - 1` of the block as it was built: OPEN in R10. -/
opaque Config.builtNfiltPred : Fin 16

/-- `CH_PRESENT[c]` of the block as it was built: OPEN in R10. -/
opaque Config.builtPresent : Nat → Bool

/-- `SMOOTH[f]` of the block as it was built: OPEN in R10. -/
opaque Config.builtWeight : Nat → Fin 256

/-- `RAW_DEFAULT` of the block as it was built: OPEN in R10. -/
opaque Config.builtRawDefault : Word

/-- The block as it was built: R10's column "value". Its OPEN parameters are the constants above, its three
parameters with a default hold the default "this hardware takes" (log 3). -/
def Config.built : Config where
  chPresent := (List.range (builtNchPred.val + 1)).map builtPresent
  smooth := (List.range (builtNfiltPred.val + 1)).map builtWeight
  rawDefault := builtRawDefault
  filtFmt := .binary32
  roundTie := .away
  normRound := .floor

/-- The value the `n`-th draw of a run gives: any 8-bit value, nothing constrains it (R98, log 6). -/
opaque Config.normDraw : Nat → NormWord

/-- The reference test configuration of R10 (RTC), for the vectors of 95_test_vectors.md. It is not a decision about
the hardware: only tests and witnesses use it. -/
def Config.rtc : Config where
  chPresent := [true, false]
  smooth := [0, 1, 3, 9]
  rawDefault := 1500#32
  filtFmt := .binary32
  roundTie := .away
  normRound := .floor

end Sys2Proof
end

