-- ==== Sys2Proof/Syntax.lean ====
section
/-! DEFINITION. The instructions (the eleven commands and the two pin events of the opcode table), the formats and
opcodes of the command words, and the steps an environment can offer the block. -/

namespace Sys2Proof

/-- The endpoint a selector `k` names: 0 LOW, 1 CENTER, 2 HIGH; 3 names none (R52). -/
inductive Endpoint where
  | low
  | center
  | high
deriving DecidableEq, Repr

/-- One constructor per row of spec/opcode_table.json. `f` is a filter index, `c` a channel index, `x` a signed and `u`
an unsigned 16-bit immediate (R54, R55); a pin event's channel is that of the pin (R60). -/
inductive Instr where
  | fstep (f : Index) (x : Half)
  | fpeek (f : Index)
  | frst (f : Index) (x : Half)
  | poll
  | rdst (c : Index)
  | norm (c : Index)
  | rdnv (c : Index)
  | ldep (c : Index) (k : Endpoint) (u : Half)
  | wrep (c : Index) (k : Endpoint) (u : Half)
  | rdep (c : Index) (k : Endpoint)
  | rdtime
  | edgeRise (c : Index)
  | edgeFall (c : Index)
deriving DecidableEq, Repr

/-- The five formats of R53. -/
inductive Format where
  | n
  | i
  | x
  | s
  | e
deriving DecidableEq, Repr

/-- The eleven opcodes of R54. -/
inductive Opcode where
  | fstep
  | fpeek
  | frst
  | poll
  | rdst
  | norm
  | rdnv
  | ldep
  | wrep
  | rdep
  | rdtime
deriving DecidableEq, Repr

/-- The space a row's `idx` field is checked against (R34, R54). -/
inductive IndexSpace where
  | none
  | filter
  | channel
deriving DecidableEq, Repr

/-- One row of the opcode map (R54), with the literal words of its columns. -/
structure OpRow where
  mnemonic : String
  opcode : Opcode
  op : BitVec 8
  format : Format
  matchWord : Word
  mask : Word
  space : IndexSpace
  selector : Bool
deriving DecidableEq, Repr

/-- The reasons for which a command word is refused: R114's closed enumeration. The hardware does not report which one
applied; a refusal is an ordinary response, not a stop. -/
inductive RefuseReason where
  | opcode
  | mbz
  | index
  | selector
deriving DecidableEq, Repr

/-- What an agent of R5 can present to the running block: the host a command word (R7), the pin of channel `c` a pair of
levels before and after (R60), the clock an advance by `d` counts (R79). -/
inductive Event where
  | command (w : Word)
  | pin (c : Index) (before after : Bool)
  | advance (d : Nat)
deriving DecidableEq, Repr

/-- One environment step: an event, or the assertion and release of `rst` (R139). `during` is what the agents present
while `rst` is asserted, a command in progress when it was asserted included: all of it is lost (R140;
DEDUCED, log 10). -/
inductive Input where
  | event (e : Event)
  | reset (during : List Event)
deriving DecidableEq, Repr

/-- What the agents present at the `n`-th step that is left to them: any input, or nothing. The constant has no body, so it
stands for every sequence, finite or infinite (R6, R121; DESIGN CHOICE, log 4). -/
opaque Config.environment : Nat → Option Input

/-- What the block does with one input: run an instruction, refuse a command word, nothing (a pin pair `00` or `11`),
advance `TIME`, or reset. -/
inductive Fetched where
  | run (i : Instr)
  | refuse (r : RefuseReason)
  | quiet
  | advance (d : Nat)
  | reset
deriving DecidableEq, Repr

end Sys2Proof
end

