-- ==== Sys2Proof/WellFormed.lean ====
section
/-! DEFINITION. When an instruction is well formed for a configuration: its index names a register that was built
(R24, R34). A selector needs no check: `Endpoint` has no value for 3. -/

namespace Sys2Proof

/-- The filter index names a filter: `f < NFILT` (R24). -/
def filterIndexOk (k : Config) (f : Index) : Bool := decide (f.toNat < k.nfilt)

/-- The channel index names a channel: `c < NCH` (R24). -/
def channelIndexOk (k : Config) (c : Index) : Bool := decide (c.toNat < k.nch)

/-- The index tests of R50 and R60 on an instruction. -/
def Instr.wf (k : Config) : Instr → Bool
  | .fstep f _ => filterIndexOk k f
  | .fpeek f => filterIndexOk k f
  | .frst f _ => filterIndexOk k f
  | .poll => true
  | .rdst c => channelIndexOk k c
  | .norm c => channelIndexOk k c
  | .rdnv c => channelIndexOk k c
  | .ldep c _ _ => channelIndexOk k c
  | .wrep c _ _ => channelIndexOk k c
  | .rdep c _ => channelIndexOk k c
  | .rdtime => true
  | .edgeRise c => channelIndexOk k c
  | .edgeFall c => channelIndexOk k c

end Sys2Proof
end

