-- ==== Sys2Proof/Decode.lean ====
section
/-! DEFINITION. Decoding of command words and pin events, total and rejecting by name (R50 to R57, R60), the opcode map
as data (R54), and the encoder. -/

namespace Sys2Proof

/-- `op = cmd[31:24]` (R51). -/
def opField (w : Word) : BitVec 8 := w.extractLsb' 24 8

/-- `idx = cmd[23:20]` (R51). -/
def idxField (w : Word) : Index := w.extractLsb' 20 4

/-- `sel = cmd[19:18]` (R51). -/
def selField (w : Word) : BitVec 2 := w.extractLsb' 18 2

/-- `mbz = cmd[17:16]` (R51). -/
def mbzField (w : Word) : BitVec 2 := w.extractLsb' 16 2

/-- `imm = cmd[15:0]` (R51). -/
def immField (w : Word) : Half := w.extractLsb' 0 16

/-- The bits a format requires to be zero (R53, R56). -/
def Format.zeroMask : Format → Word
  | .n => 0x00FFFFFF#32
  | .i => 0x000FFFFF#32
  | .x => 0x000F0000#32
  | .s => 0x0003FFFF#32
  | .e => 0x00030000#32

/-- The endpoint a selector names; 3 is unimplemented (R52). -/
def Endpoint.ofSel (k : BitVec 2) : Option Endpoint :=
  if k = 0#2 then some .low else if k = 1#2 then some .center else if k = 2#2 then some .high else none

/-- The selector of an endpoint (R52). -/
def Endpoint.sel : Endpoint → BitVec 2
  | .low => 0#2
  | .center => 1#2
  | .high => 2#2

/-- The opcode's value (R54). -/
def Opcode.bits : Opcode → BitVec 8
  | .fstep => 0x10#8
  | .fpeek => 0x11#8
  | .frst => 0x12#8
  | .poll => 0x20#8
  | .rdst => 0x21#8
  | .norm => 0x30#8
  | .rdnv => 0x31#8
  | .ldep => 0x32#8
  | .wrep => 0x33#8
  | .rdep => 0x34#8
  | .rdtime => 0x40#8

/-- The eleven opcodes, in the order of R54. -/
def Opcode.all : List Opcode :=
  [.fstep, .fpeek, .frst, .poll, .rdst, .norm, .rdnv, .ldep, .wrep, .rdep, .rdtime]

/-- The opcode whose value is `b`; every value R54 does not list is reserved (R57). -/
def Opcode.ofBits (b : BitVec 8) : Option Opcode := Opcode.all.find? fun o => o.bits == b

/-- The format of an opcode's words (R54). -/
def Opcode.format : Opcode → Format
  | .fstep => .x
  | .fpeek => .i
  | .frst => .x
  | .poll => .n
  | .rdst => .i
  | .norm => .i
  | .rdnv => .i
  | .ldep => .e
  | .wrep => .e
  | .rdep => .s
  | .rdtime => .n

/-- An operand triple with the endpoint that the word's selector names; selector 3 is refused (R52, R57). -/
def withSelector (w : Word) (mk : Endpoint → Instr) : Except RefuseReason Instr :=
  match Endpoint.ofSel (selField w) with
  | some k => .ok (mk k)
  | none => .error .selector

/-- The instruction of an opcode, with the operands of R55 read from the word. -/
def Opcode.operands (w : Word) : Opcode → Except RefuseReason Instr
  | .fstep => .ok (.fstep (idxField w) (immField w))
  | .fpeek => .ok (.fpeek (idxField w))
  | .frst => .ok (.frst (idxField w) (immField w))
  | .poll => .ok .poll
  | .rdst => .ok (.rdst (idxField w))
  | .norm => .ok (.norm (idxField w))
  | .rdnv => .ok (.rdnv (idxField w))
  | .ldep => withSelector w fun k => .ldep (idxField w) k (immField w)
  | .wrep => withSelector w fun k => .wrep (idxField w) k (immField w)
  | .rdep => withSelector w fun k => .rdep (idxField w) k
  | .rdtime => .ok .rdtime

/-- R50's tests that need the word alone: opcode, must-be-zero bits, selector. The index test needs `NCH` and `NFILT`
and stands in the meaning (`State.onFilter`, `State.onChannel`); the order is not observable (R50, R128;
DEDUCED, log 8). -/
def decode (w : Word) : Except RefuseReason Instr :=
  match Opcode.ofBits (opField w) with
  | none => .error .opcode
  | some o => if w &&& o.format.zeroMask ≠ 0#32 then .error .mbz else o.operands w

/-- The pin event that the levels before and after select; `00` and `11` are no operation (R60). -/
def decodePin (c : Index) (before after : Bool) : Option Instr :=
  match before, after with
  | false, true => some (.edgeRise c)
  | true, false => some (.edgeFall c)
  | false, false => none
  | true, true => none

/-- What the block does with one input. -/
def Input.fetch : Input → Fetched
  | .event (.command w) =>
    match decode w with
    | .ok i => .run i
    | .error r => .refuse r
  | .event (.pin c before after) =>
    match decodePin c before after with
    | some i => .run i
    | none => .quiet
  | .event (.advance d) => .advance d
  | .reset _ => .reset

/-- The opcode map of R54: its literal columns. -/
def opcodeMap : List OpRow :=
  [ ⟨"FSTEP", .fstep, 0x10#8, .x, 0x10000000#32, 0xFF0F0000#32, .filter, false⟩,
    ⟨"FPEEK", .fpeek, 0x11#8, .i, 0x11000000#32, 0xFF0FFFFF#32, .filter, false⟩,
    ⟨"FRST", .frst, 0x12#8, .x, 0x12000000#32, 0xFF0F0000#32, .filter, false⟩,
    ⟨"POLL", .poll, 0x20#8, .n, 0x20000000#32, 0xFFFFFFFF#32, .none, false⟩,
    ⟨"RDST", .rdst, 0x21#8, .i, 0x21000000#32, 0xFF0FFFFF#32, .channel, false⟩,
    ⟨"NORM", .norm, 0x30#8, .i, 0x30000000#32, 0xFF0FFFFF#32, .channel, false⟩,
    ⟨"RDNV", .rdnv, 0x31#8, .i, 0x31000000#32, 0xFF0FFFFF#32, .channel, false⟩,
    ⟨"LDEP", .ldep, 0x32#8, .e, 0x32000000#32, 0xFF030000#32, .channel, true⟩,
    ⟨"WREP", .wrep, 0x33#8, .e, 0x33000000#32, 0xFF030000#32, .channel, true⟩,
    ⟨"RDEP", .rdep, 0x34#8, .s, 0x34000000#32, 0xFF03FFFF#32, .channel, true⟩,
    ⟨"RDTIME", .rdtime, 0x40#8, .n, 0x40000000#32, 0xFFFFFFFF#32, .none, false⟩ ]

/-- An index is in the space a row checks it against (R34). -/
def IndexSpace.admits (k : Config) (idx : Index) : IndexSpace → Bool
  | .none => true
  | .filter => filterIndexOk k idx
  | .channel => channelIndexOk k idx

/-- R50's decoding procedure whole, in its order, over the opcode map: why the block refuses a word, `none` when it
accepts it. `step` does not call it: it is the spec's own reading, for statements. -/
def refusal (k : Config) (w : Word) : Option RefuseReason :=
  match opcodeMap.find? fun r => r.op == opField w with
  | none => some .opcode
  | some r =>
    if w &&& r.format.zeroMask ≠ 0#32 then some .mbz
    else if !r.space.admits k (idxField w) then some .index
    else if r.selector && selField w == 3#2 then some .selector
    else none

/-- A command word from its fields, bits 17:16 zero (R51, R53). -/
def mkWord (op : BitVec 8) (idx : Index) (sel : BitVec 2) (imm : Half) : Word :=
  op ++ idx ++ sel ++ 0#2 ++ imm

/-- The encoding of an instruction: the command word (R51 to R54), or the pin's levels (R60). -/
def encode : Instr → Event
  | .fstep f x => .command (mkWord 0x10#8 f 0#2 x)
  | .fpeek f => .command (mkWord 0x11#8 f 0#2 0#16)
  | .frst f x => .command (mkWord 0x12#8 f 0#2 x)
  | .poll => .command (mkWord 0x20#8 0#4 0#2 0#16)
  | .rdst c => .command (mkWord 0x21#8 c 0#2 0#16)
  | .norm c => .command (mkWord 0x30#8 c 0#2 0#16)
  | .rdnv c => .command (mkWord 0x31#8 c 0#2 0#16)
  | .ldep c k u => .command (mkWord 0x32#8 c k.sel u)
  | .wrep c k u => .command (mkWord 0x33#8 c k.sel u)
  | .rdep c k => .command (mkWord 0x34#8 c k.sel 0#16)
  | .rdtime => .command (mkWord 0x40#8 0#4 0#2 0#16)
  | .edgeRise c => .pin c false true
  | .edgeFall c => .pin c true false

/-- The instruction the decoder reads from a row's bits as spec/opcode_table.json numbers them. A command is one 32-bit
word, presented whole (R35, R49). A pin event has two bits, the level before and the level after (R60); the table gives
its channel no bits, so the pin is that of channel 0 (DESIGN CHOICE, log 11). -/
def decodeTableWord (nbits w : Nat) : Option Instr :=
  if nbits < 32 then
    if w < 4 then decodePin 0#4 (w.testBit 1) (w.testBit 0) else none
  else if w < 4294967296 then
    match decode (BitVec.ofNat 32 w) with
    | .ok i => some i
    | .error _ => none
  else none

end Sys2Proof
end

