-- ==== Sys2Proof/Machine/Params.lean ====
section
/-! DEFINITION. The parameters that R10 fixes for this hardware, each under its own name. -/

namespace Sys2Proof.Machine

/-- `EP_MIN` (R10). -/
def epMin : Nat := 500

/-- `EP_MAX` (R10). -/
def epMax : Nat := 2500

/-- `EP_DEF[k]`: `EP_DEF_LOW`, `EP_DEF_CENTER`, `EP_DEF_HIGH` (R10, R100). -/
def epDefault : Endpoint → Half
  | .low => 1000#16
  | .center => 1500#16
  | .high => 2000#16

/-- `NV_SCALE` (R10). -/
def nvScale : Nat := 100

end Sys2Proof.Machine
end

