-- ==== Sys2Proof/Machine/State.lean ====
section
/-! DEFINITION. The state of the block (R13), its response (R7), the state after reset (R29, R139), and the closed
reasons for which a step could stop. -/

namespace Sys2Proof.Machine

/-- The registers of one channel (R13): `RISE_TS`, `RAW`, `STAGED`, `EP_LOW`, `EP_CENTER`, `EP_HIGH`, `NVAL`. -/
structure Channel where
  riseTs : Word
  raw : Word
  staged : Word
  epLow : Half
  epCenter : Half
  epHigh : Half
  nval : NormWord
deriving DecidableEq, Repr

/-- The response to a command: `(err, data)` (R7). -/
structure Response where
  err : Bool
  data : Word
deriving DecidableEq, Repr

/-- The state. R13's registers are `time`, `channels` (entry `c` is channel `c`) and `avg` (entry `f` is `AVG[f]`, the
rational it stands for: R23). `cfg` is the configuration the step relation takes as an argument (R8); no step writes it.
The last four fields are the model's own: `inputs`, what the agents present next, in the order in which they do (the
interleaving of R6, as far as it is listed); `offers`, how many steps have been left to the free environment, which acts
where nothing is listed (R121); `responses`, what the host has observed, oldest first (R9); `draws`, how many draws of R98 have
been taken. DESIGN CHOICE: that the configuration rides in the state (log 1), and the model's own fields (logs 4, 5,
6). DEDUCED: that `AVG` is held as a rational (log 9). -/
structure State where
  cfg : Config
  time : Word
  channels : List Channel
  avg : List Rat
  inputs : List Input
  offers : Nat
  responses : List Response
  draws : Nat
deriving DecidableEq, Repr

/-- The reasons for which a step stops with a fault: there are none, "no step yields a fault and no state is stuck"
(R123). -/
inductive Fault where
deriving DecidableEq, Repr

/-- The reasons for which the model has no meaning for an instruction. -/
inductive Refusal where
  /-- An arm of `exec` that has no meaning yet, by its mnemonic. Safe: the model stops where the block goes on. No arm
  raises it: every instruction has its meaning. -/
  | notModelled (mnemonic : String)
deriving DecidableEq, Repr

/-- A channel after reset (R29, R139). -/
def Channel.atReset (rawDefault : Word) : Channel where
  riseTs := 0#32
  raw := rawDefault
  staged := rawDefault
  epLow := epDefault .low
  epCenter := epDefault .center
  epHigh := epDefault .high
  nval := 0#8

/-- The block built with configuration `k`, after reset (R29, R139), with nothing listed and nothing observed yet (the last four
fields: DESIGN CHOICE, logs 4, 5, 6). -/
def State.resetFor (k : Config) : State where
  cfg := k
  time := 0#32
  channels := List.replicate k.nch (Channel.atReset k.rawDefault)
  avg := List.replicate k.nfilt 0
  inputs := []
  offers := 0
  responses := []
  draws := 0

/-- The machine after reset: the block as it was built, its OPEN parameters unknown (R10, R29). -/
def State.reset : State := State.resetFor Config.built

end Sys2Proof.Machine
end

