-- ==== Sys2Proof/Machine/Flags.lean ====
section
/-! DEFINITION. There are no flags, condition codes or status registers (R16). The only status of a command is the `err`
bit of its response, which stands here with the data of an accepted and of a refused command (R59). -/

namespace Sys2Proof.Machine

/-- The response of an accepted command: `(err = 0, data)` (R59). -/
def Response.accepted (data : Word) : Response := ⟨false, data⟩

/-- The response of a refused command: `(err = 1, data = 0)` (R59, R113). -/
def Response.refused : Response := ⟨true, 0#32⟩

end Sys2Proof.Machine
end

