-- ==== Sys2Proof/Machine/Ops.lean ====
section
/-! DEFINITION. The named operations over the registers: responding and refusing, reading and writing a channel or a
filter, the index tests, the clock step, RESET, and what is presented next. The block takes no exception and returns from none (R123, R129,
R130): there is no entry operation to define. -/

namespace Sys2Proof.Machine

/-- `respond(v)`: the response `(err = 0, data = v)` (00_scope.md section 6, R59). -/
def State.respond (s : State) (data : Word) : State :=
  { s with responses := s.responses ++ [Response.accepted data] }

/-- `refuse`: no register changes and the response is `(err = 1, data = 0)` (R113). -/
def State.refuse (s : State) : State :=
  { s with responses := s.responses ++ [Response.refused] }

/-- The registers of channel `c`. In a state whose bank is too short for its configuration, which no run reaches, a
register that is not there reads as after reset and a write of it is dropped (DESIGN CHOICE, log 12). -/
def State.channel (s : State) (c : Index) : Channel :=
  s.channels.getD c.toNat (Channel.atReset s.cfg.rawDefault)

/-- The registers of channel `c` written, every other register as before. -/
def State.setChannel (s : State) (c : Index) (ch : Channel) : State :=
  { s with channels := s.channels.set c.toNat ch }

/-- `AVG[f]`. -/
def State.avgAt (s : State) (f : Index) : Rat := s.avg.getD f.toNat 0

/-- `AVG[f] <- a`. -/
def State.setAvg (s : State) (f : Index) (a : Rat) : State :=
  { s with avg := s.avg.set f.toNat a }

/-- A command on channel `c`: performed on the channel's registers when `c < NCH`, refused otherwise (R50, R113). -/
def State.onChannel (s : State) (c : Index) (body : Channel → State) : State :=
  if channelIndexOk s.cfg c then body (s.channel c) else s.refuse

/-- A command on filter `f`: performed on its running value when `f < NFILT`, refused otherwise (R50, R113). -/
def State.onFilter (s : State) (f : Index) (body : Rat → State) : State :=
  if filterIndexOk s.cfg f then body (s.avgAt f) else s.refuse

/-- A pin event of channel `c`: taken when `CH_PRESENT[c]`, without effect otherwise; no response (R80 to R82;
an index that is no channel has no pin: DESIGN CHOICE, log 7). -/
def State.onPin (s : State) (c : Index) (body : Channel → Channel) : State :=
  if s.cfg.present c then s.setChannel c (body (s.channel c)) else s

/-- ADVANCE d: `TIME <- (TIME + d) mod 2^32` (R79). -/
def State.advance (s : State) (d : Nat) : State :=
  { s with time := s.time + BitVec.ofNat 32 d }

/-- RESET: every register at its reset value; the configuration is unaffected (R139). What is still to be presented, what
the host has seen and the number of draws taken are not registers, and stay (logs 4, 5, 6). -/
def State.doReset (s : State) : State :=
  { State.resetFor s.cfg with inputs := s.inputs, offers := s.offers, responses := s.responses, draws := s.draws }

/-- The input removed from what is still to be presented. -/
def State.consume (s : State) (rest : List Input) : State := { s with inputs := rest }

/-- A step has been left to the free environment (log 4). -/
def State.countOffer (s : State) : State := { s with offers := s.offers + 1 }

/-- What is presented at this step, if anything, and the state with it taken: the first of the listed inputs; with none
listed, what the free environment presents, so that the sequence need not end (R6, R9, R121; DESIGN CHOICE, log 4). -/
def State.takeInput (s : State) : Option Input × State :=
  match s.inputs with
  | x :: rest => (some x, s.consume rest)
  | [] => (Config.environment s.offers, s.countOffer)

end Sys2Proof.Machine
end

