-- ==== Sys2Proof/Machine/Operands.lean ====
section
/-! DEFINITION. Operands and results: the signed immediate, the endpoint a selector reaches, the validity and the
ordering of endpoints, and the extensions to a 32-bit response (R55, R59, R103, R116). -/

namespace Sys2Proof.Machine

/-- `x = signed_16(imm)`: the immediate of FSTEP and FRST, an integer in [-32768, 32767] (R55). -/
def signedImm (x : Half) : Int := x.toInt

/-- `sext_32` of an integer result, taken modulo 2^32 (R59). -/
def sextResult (v : Int) : Word := BitVec.ofInt 32 v

/-- `sext_32(NVAL)` (R59). -/
def sextNorm (v : NormWord) : Word := v.signExtend 32

/-- `zext_32` of an endpoint (R59). -/
def zextEndpoint (u : Half) : Word := u.setWidth 32

/-- `EP[c][k]` read (R52, R102). -/
def Channel.endpoint (ch : Channel) : Endpoint → Half
  | .low => ch.epLow
  | .center => ch.epCenter
  | .high => ch.epHigh

/-- `EP[c][k] <- v` (R52, R100). -/
def Channel.setEndpoint (ch : Channel) (k : Endpoint) (v : Half) : Channel :=
  match k with
  | .low => { ch with epLow := v }
  | .center => { ch with epCenter := v }
  | .high => { ch with epHigh := v }

/-- `valid(u)`: `EP_MIN <= u and u <= EP_MAX`, both bounds included (R103). -/
def validEndpoint (u : Half) : Bool := decide (epMin ≤ u.toNat) && decide (u.toNat ≤ epMax)

/-- The value LDEP stores: the operand when it is valid, the default of its endpoint otherwise (R100). -/
def loadedEndpoint (k : Endpoint) (u : Half) : Half := if validEndpoint u then u else epDefault k

/-- `EP_LOW < EP_CENTER < EP_HIGH` (R94, R97). -/
def Channel.ordered (ch : Channel) : Bool :=
  decide (ch.epLow.toNat < ch.epCenter.toNat) && decide (ch.epCenter.toNat < ch.epHigh.toNat)

end Sys2Proof.Machine
end

