-- ==== Sys2Proof/Machine/Rounding.lean ====
section
/-! DEFINITION. Rounding of rationals to integers and to the filter's number format, and the filter's arithmetic
(00_scope.md section 6, R66, R67, R68, R69). -/

namespace Sys2Proof.Machine

/-- `trunc(q)`: toward zero. -/
def truncInt (q : Rat) : Int := if 0 ≤ q then q.floor else -(-q).floor

/-- `nearest_away(q) = sign(q) * floor(|q| + 1/2)` (R68). -/
def nearestAway (q : Rat) : Int := if 0 ≤ q then (q + 1 / 2).floor else -(-q + 1 / 2).floor

/-- `nearest_even(q)`: the nearest integer, an exact half to the even one. -/
def nearestEven (q : Rat) : Int :=
  if q - q.floor < 1 / 2 then q.floor
  else if 1 / 2 < q - q.floor then q.floor + 1
  else if q.floor % 2 = 0 then q.floor
  else q.floor + 1

/-- `round_int` (R68). -/
def roundInt (t : RoundTie) (q : Rat) : Int :=
  match t with
  | .away => nearestAway q
  | .even => nearestEven q

/-- `2^e` for an integer `e`. -/
def pow2 : Int → Rat
  | .ofNat n => ((2 ^ n : Nat) : Rat)
  | .negSucc n => 1 / ((2 ^ (n + 1) : Nat) : Rat)

/-- `floor(log2(|q|))`: the integer E with `2^E <= |q| < 2^(E+1)`, for `q` not zero (R66). -/
def floorLog2 (q : Rat) : Int :=
  let e : Int := (q.num.natAbs.log2 : Int) - (q.den.log2 : Int)
  if pow2 e ≤ (q.num.natAbs : Rat) / (q.den : Rat) then e else e - 1

/-- The pair (p, emin) that `FILT_FMT` selects; EXACT has no rounding (R66). -/
def fmtParams : FiltFmt → Option (Int × Int)
  | .binary32 => some (24, -126)
  | .binary64 => some (53, -1022)
  | .exact => none

/-- The spacing of the format's numbers around `q`: `2^(max(floor(log2 |q|), emin) - p + 1)` (R66). -/
def ulp (p emin : Int) (q : Rat) : Rat := pow2 (max (floorLog2 q) emin - p + 1)

/-- `rnd(q)`: the rational rounded to `FNum` (R66). -/
def rnd (fmt : FiltFmt) (q : Rat) : Rat :=
  match fmtParams fmt with
  | none => q
  | some (p, emin) => if q = 0 then q else ulp p emin q * (nearestEven (q / ulp p emin q) : Rat)

/-- `fofint(n)` (R67). -/
def fofint (fmt : FiltFmt) (n : Int) : Rat := rnd fmt (n : Rat)

/-- `fmul(a, b)` (R67). -/
def fmul (fmt : FiltFmt) (a b : Rat) : Rat := rnd fmt (a * b)

/-- `fadd(a, b)` (R67). -/
def fadd (fmt : FiltFmt) (a b : Rat) : Rat := rnd fmt (a + b)

/-- `fdiv(a, b)` (R67). -/
def fdiv (fmt : FiltFmt) (a b : Rat) : Rat := rnd fmt (a / b)

/-- The new running value of one step with weight `w` and sample `x`: the product, then the sum, then the quotient, each
rounded once (R67, R69). -/
def filterNext (fmt : FiltFmt) (w : Nat) (a : Rat) (x : Int) : Rat :=
  let t1 := fmul fmt a (fofint fmt w)
  let t2 := fadd fmt t1 (fofint fmt x)
  fdiv fmt t2 (fofint fmt ((w : Int) + 1))

end Sys2Proof.Machine
end

