-- ==== Sys2Proof/Machine/Interpolation.lean ====
section
/-! DEFINITION. The interpolation function of the calibration mapper (R94, R95, R96). -/

namespace Sys2Proof.Machine

/-- `quot(raw, L, C, H)`: the exact quotient, for `L < C < H` (R94). -/
def quot (raw L C H : Nat) : Rat :=
  if C ≤ raw then ((min raw H : Nat) - (C : Nat) : Rat) * (nvScale : Rat) / ((H : Nat) - (C : Nat) : Rat)
  else ((max raw L : Nat) - (C : Nat) : Rat) * (nvScale : Rat) / ((C : Nat) - (L : Nat) : Rat)

/-- `NR`: the interpolator's rounding that `NORM_ROUND` selects (R95). -/
def nrRound (m : NormRound) (q : Rat) : Int :=
  match m with
  | .floor => q.floor
  | .trunc => truncInt q
  | .nearest => nearestAway q

/-- `normalize(raw, L, C, H) = NR(quot(raw, L, C, H))`, for `L < C < H` (R96). -/
def normalizeWidth (m : NormRound) (raw L C H : Nat) : Int := nrRound m (quot raw L C H)

/-- `normalize` of a raw width on a channel's own endpoints (R97). -/
def Channel.normalized (ch : Channel) (m : NormRound) (raw : Word) : Int :=
  normalizeWidth m raw.toNat ch.epLow.toNat ch.epCenter.toNat ch.epHigh.toNat

end Sys2Proof.Machine
end

