-- ==== Sys2Proof/Machine/Filter.lean ====
section
/-! DEFINITION. The smoothing filter family: FSTEP, FPEEK, FRST (40_filter.md). -/

namespace Sys2Proof.Machine

/-- FSTEP f, x (R69). -/
def execFstep (f : Index) (x : Half) (s : State) : Host.Outcome State Fault Refusal :=
  .next (s.onFilter f fun a =>
    let aNew := filterNext s.cfg.filtFmt (s.cfg.weight f) a (signedImm x)
    (s.setAvg f aNew).respond (sextResult (roundInt s.cfg.roundTie aNew)))

/-- FPEEK f (R70). -/
def execFpeek (f : Index) (s : State) : Host.Outcome State Fault Refusal :=
  .next (s.onFilter f fun a => s.respond (sextResult (roundInt s.cfg.roundTie a)))

/-- FRST f, x (R71). -/
def execFrst (f : Index) (x : Half) (s : State) : Host.Outcome State Fault Refusal :=
  .next (s.onFilter f fun _ => (s.setAvg f (fofint s.cfg.filtFmt (signedImm x))).respond 0#32)

end Sys2Proof.Machine
end

