-- ==== Sys2Proof/Machine/Capture.lean ====
section
/-! DEFINITION. The PWM capture family: the pin events EDGE.RISE and EDGE.FALL, POLL and RDST (41_capture.md). The clock
step ADVANCE is `State.advance`. -/

namespace Sys2Proof.Machine

/-- EDGE.RISE c: `RISE_TS[c] <- TIME` on a present channel (R80). -/
def execEdgeRise (c : Index) (s : State) : Host.Outcome State Fault Refusal :=
  .next (s.onPin c fun ch => { ch with riseTs := s.time })

/-- EDGE.FALL c: `RAW[c] <- (TIME - RISE_TS[c]) mod 2^32` on a present channel (R81). -/
def execEdgeFall (c : Index) (s : State) : Host.Outcome State Fault Refusal :=
  .next (s.onPin c fun ch => { ch with raw := s.time - ch.riseTs })

/-- `STAGED[c] <- RAW[c]` on one channel. -/
def Channel.stage (ch : Channel) : Channel := { ch with staged := ch.raw }

/-- POLL: `STAGED[c] <- RAW[c]` for every channel in one step (R83). -/
def execPoll (s : State) : Host.Outcome State Fault Refusal :=
  .next (State.respond { s with channels := s.channels.map Channel.stage } 0#32)

/-- RDST c (R84). -/
def execRdst (c : Index) (s : State) : Host.Outcome State Fault Refusal :=
  .next (s.onChannel c fun ch => s.respond ch.staged)

end Sys2Proof.Machine
end

