-- ==== Sys2Proof/Machine/Mapper.lean ====
section
/-! DEFINITION. The calibration mapper family: NORM, RDNV, LDEP, WREP, RDEP (42_mapper.md). -/

namespace Sys2Proof.Machine

/-- `NVAL[c] <- v`, and the response `sext_32(v)` (R97). -/
def State.storeNorm (s : State) (c : Index) (v : NormWord) : State :=
  (s.setChannel c { s.channel c with nval := v }).respond (sextNorm v)

/-- A draw has been taken (R98). -/
def State.countDraw (s : State) : State := { s with draws := s.draws + 1 }

/-- NORM c: the normalization of `STAGED[c]` when the endpoints are ordered, a draw of any 8-bit value when they are
not (R97, R98). -/
def execNorm (c : Index) (s : State) : Host.Outcome State Fault Refusal :=
  .next (s.onChannel c fun ch =>
    if ch.ordered then s.storeNorm c (BitVec.ofInt 8 (ch.normalized s.cfg.normRound ch.staged))
    else s.countDraw.storeNorm c (Config.normDraw s.draws))

/-- RDNV c (R99). -/
def execRdnv (c : Index) (s : State) : Host.Outcome State Fault Refusal :=
  .next (s.onChannel c fun ch => s.respond (sextNorm ch.nval))

/-- `EP[c][k] <- v`, and the response `zext_32(v)` (R100, R101). -/
def State.storeEndpoint (s : State) (c : Index) (k : Endpoint) (v : Half) : State :=
  (s.setChannel c ((s.channel c).setEndpoint k v)).respond (zextEndpoint v)

/-- LDEP c, k, u: stores the operand, or the endpoint's default when the operand is out of range (R100). -/
def execLdep (c : Index) (k : Endpoint) (u : Half) (s : State) : Host.Outcome State Fault Refusal :=
  .next (s.onChannel c fun _ => s.storeEndpoint c k (loadedEndpoint k u))

/-- WREP c, k, u: stores the operand without validation (R101). -/
def execWrep (c : Index) (k : Endpoint) (u : Half) (s : State) : Host.Outcome State Fault Refusal :=
  .next (s.onChannel c fun _ => s.storeEndpoint c k u)

/-- RDEP c, k (R102). -/
def execRdep (c : Index) (k : Endpoint) (s : State) : Host.Outcome State Fault Refusal :=
  .next (s.onChannel c fun ch => s.respond (zextEndpoint (ch.endpoint k)))

end Sys2Proof.Machine
end

