-- ==== Sys2Proof/Machine/System.lean ====
section
/-! DEFINITION. The system family: RDTIME (43_system.md). -/

namespace Sys2Proof.Machine

/-- RDTIME (R111). -/
def execRdtime (s : State) : Host.Outcome State Fault Refusal :=
  .next (s.respond s.time)

end Sys2Proof.Machine
end

