-- ==== Sys2Proof/Machine/Dispatch.lean ====
section
/-! DEFINITION. One arm per instruction: the call of its meaning. -/

namespace Sys2Proof.Machine

def exec (i : Instr) (s : State) : Host.Outcome State Fault Refusal :=
  match i with
  -- 40_filter.md
  | .fstep f x => Sys2Proof.Machine.execFstep f x s
  | .fpeek f => Sys2Proof.Machine.execFpeek f s
  | .frst f x => Sys2Proof.Machine.execFrst f x s
  -- 41_capture.md
  | .poll => Sys2Proof.Machine.execPoll s
  | .rdst c => Sys2Proof.Machine.execRdst c s
  -- 42_mapper.md
  | .norm c => Sys2Proof.Machine.execNorm c s
  | .rdnv c => Sys2Proof.Machine.execRdnv c s
  | .ldep c k u => Sys2Proof.Machine.execLdep c k u s
  | .wrep c k u => Sys2Proof.Machine.execWrep c k u s
  | .rdep c k => Sys2Proof.Machine.execRdep c k s
  -- 43_system.md
  | .rdtime => Sys2Proof.Machine.execRdtime s
  -- 41_capture.md, the pin events
  | .edgeRise c => Sys2Proof.Machine.execEdgeRise c s
  | .edgeFall c => Sys2Proof.Machine.execEdgeFall c s

end Sys2Proof.Machine
end

