-- ==== Sys2Proof/Machine/Step.lean ====
section
/-! DEFINITION. One step of the machine: the next input of the interleaving, taken atomically (R5, R6, R7). -/

namespace Sys2Proof.Machine

/-- What the block does with a fetched input. -/
def State.perform (s : State) (x : Fetched) : Host.Outcome State Fault Refusal :=
  match x with
  | .run i => exec i s
  | .refuse _ => .next s.refuse
  | .quiet => .next s
  | .advance d => .next (s.advance d)
  | .reset => .next s.doReset

/-- One step: what is presented is taken and acted on. Where nothing is presented no agent takes a step and every register
stays as it is: the block never halts and is never stuck (R9, R118, R123). -/
def step (s : State) : Host.Outcome State Fault Refusal :=
  match s.takeInput with
  | (some x, t) => t.perform x.fetch
  | (none, t) => .next t

/-- The input that presents a table row's bits: a 32-bit command word on the command port, or the two levels of a pin
event on the pin of channel 0 (R35, R60). -/
def tableInput (nbits w : Nat) : Input :=
  if nbits < 32 then .event (.pin 0#4 (w.testBit 1) (w.testBit 0)) else .event (.command (BitVec.ofNat 32 w))

/-- The block fetches nothing (R15): the host presents a word, the environment moves a pin. `withFetchWord` makes that
presentation the next one (log 11). -/
def State.withFetchWord (s : State) (nbits w : Nat) : State :=
  { s with inputs := tableInput nbits w :: s.inputs }

end Sys2Proof.Machine
end

