-- ==== Sys2Proof/Machine/Pseudo.lean ====
section
/-! DEFINITION. The pseudo-commands of R62: each is exactly its listed sequence of steps and has no encoding of its
own. -/

namespace Sys2Proof.Machine

/-- The input that presents an instruction: its command word, or its pin event. -/
def present (i : Instr) : Input := .event (encode i)

/-- `TICKPOLL`: `POLL`, then `NORM c` for every channel in order (R62). -/
def tickpoll (k : Config) : List Input :=
  present .poll :: (List.range k.nch).map fun c => present (.norm (BitVec.ofNat 4 c))

/-- `LDEP3 c, l, m, h` (R62). -/
def ldep3 (c : Index) (l m h : Half) : List Input :=
  [present (.ldep c .low l), present (.ldep c .center m), present (.ldep c .high h)]

/-- `WREP3 c, l, m, h` (R62). -/
def wrep3 (c : Index) (l m h : Half) : List Input :=
  [present (.wrep c .low l), present (.wrep c .center m), present (.wrep c .high h)]

/-- `PULSE c, d`: a rising edge, `d` counts, a falling edge (R62). -/
def pulse (c : Index) (d : Nat) : List Input :=
  [present (.edgeRise c), .event (.advance d), present (.edgeFall c)]

end Sys2Proof.Machine
end

