-- ==== Sys2Proof/Machine/Convergence.lean ====
section
/-! DEFINITION. The numbers a running value can be (R66, R73), repeated steps of a filter on a constant sample, and the
named obligation `P_CONV` on the filter's arithmetic (R75, U6). -/

namespace Sys2Proof.Machine

/-- `FNum`: the rationals `rnd` can return (R66). -/
def isFNum (fmt : FiltFmt) (a : Rat) : Prop := ∃ q : Rat, rnd fmt q = a

/-- `AVG[f]` is in `FNum` and between the least and the greatest operand (R28, R73). -/
def avgOk (fmt : FiltFmt) (a : Rat) : Prop := isFNum fmt a ∧ -32768 ≤ a ∧ a ≤ 32767

/-- `AVG` after `n` FSTEPs of the constant sample `v` on a filter of weight `w` that stood at `a` (R69, R75). -/
def filterIterate (fmt : FiltFmt) (w : Nat) (v : Int) : Nat → Rat → Rat
  | 0, a => a
  | n + 1, a => filterIterate fmt w v n (filterNext fmt w a v)

/-- From some number of steps on, every FSTEP of the constant `v`, from the start value `a₀` and with weight `w`,
responds `v` (R75). -/
def convergesTo (fmt : FiltFmt) (tie : RoundTie) (w : Nat) (a₀ : Rat) (v : Int) : Prop :=
  ∃ n₀, ∀ n, n₀ ≤ n → roundInt tie (filterIterate fmt w v n a₀) = v

/-- `P_CONV` (R75 (b), ruling U6), of a configuration: every filter f of it, with the weight `SMOOTH[f]`, converges to
every constant in the operand range from every start value its register can hold. The spec does not prove it of
BINARY32 or BINARY64, and the model does not establish it of them: it is a hypothesis that a claim may assume, by this
name only (log 15). -/
def P_CONV (k : Config) : Prop :=
  ∀ (f : Index) (a₀ : Rat) (v : Int), f.toNat < k.nfilt → avgOk k.filtFmt a₀ → -32768 ≤ v → v ≤ 32767 →
    convergesTo k.filtFmt k.roundTie (k.weight f) a₀ v

end Sys2Proof.Machine
end

