-- ==== Sys2Proof/Safety.lean ====
section
/-! DEFINITION. What counts as a good state and a good run, in the terms the statements use: legal configuration and
banks, the type invariants of the registers (R28, R73), environment steps, and what a step leaves as it was. -/

namespace Sys2Proof.Machine

/-- `n` steps of the machine. -/
def runN (n : Nat) (s : State) : Host.Outcome State Fault Refusal := Host.Core.run Sys2Proof.core n s

/-- An infinite execution under the infinite sequence of inputs `env`: `σ n` is the state before the step that takes
`env n` (R6, R121). -/
def isExecution (env : Nat → Input) (σ : Nat → State) : Prop :=
  ∀ n, step { σ n with inputs := [env n] } = .next (σ (n + 1))

/-- The inputs of a sequence from position `i` up to, and without, position `j`. -/
def window (env : Nat → Input) (i j : Nat) : List Input := (List.range (j - i)).map fun n => env (i + n)

/-- The configuration is legal and the banks have the sizes it gives (R10, R13). -/
abbrev State.banksOk (s : State) : Prop :=
  s.cfg.wf = true ∧ s.channels.length = s.cfg.nch ∧ s.avg.length = s.cfg.nfilt

/-- The type invariants of every reachable state (R28), with R73's bound on the running values. -/
def State.typeInv (s : State) : Prop :=
  s.banksOk ∧ ∀ a ∈ s.avg, avgOk s.cfg.filtFmt a

/-- On every absent channel the two registers that only a capture agent writes are as reset left them (R82). -/
def State.absentInv (s : State) : Prop :=
  ∀ c : Index, s.cfg.present c = false →
    (s.channel c).riseTs = 0#32 ∧ (s.channel c).raw = s.cfg.rawDefault

/-- An input of a capture agent or of the clock: neither the host's nor a reset (R5). -/
def isEnv : Input → Bool
  | .event (.command _) => false
  | .event (.pin _ _ _) => true
  | .event (.advance _) => true
  | .reset _ => false

/-- An input that is not a reset. -/
def isNotReset : Input → Bool
  | .event _ => true
  | .reset _ => false

/-- The sum of the advances in a sequence of inputs: the D of R85. -/
def counts : List Input → Nat
  | [] => 0
  | .event (.advance d) :: rest => d + counts rest
  | .event (.command _) :: rest => counts rest
  | .event (.pin _ _ _) :: rest => counts rest
  | .reset _ :: rest => counts rest

/-- The configuration and every register of `t` are as in `s`. -/
def sameRegisters (s t : State) : Prop :=
  t.cfg = s.cfg ∧ t.time = s.time ∧ t.channels = s.channels ∧ t.avg = s.avg

/-- The configuration and every register but those of channel `c` are as in `s`. -/
def sameButChannel (c : Index) (s t : State) : Prop :=
  t.cfg = s.cfg ∧ t.time = s.time ∧ t.avg = s.avg ∧ t.channels.length = s.channels.length ∧
    ∀ d : Index, d ≠ c → t.channel d = s.channel d

/-- The configuration and every register but `AVG[f]` are as in `s`. -/
def sameButFilter (f : Index) (s t : State) : Prop :=
  t.cfg = s.cfg ∧ t.time = s.time ∧ t.channels = s.channels ∧ t.avg.length = s.avg.length ∧
    ∀ g : Index, g ≠ f → t.avgAt g = s.avgAt g

/-- The responses `rs` are appended to what the host has observed. -/
def respondedWith (rs : List Response) (s t : State) : Prop := t.responses = s.responses ++ rs

/-- What is still to be presented, by the list and by the free environment, and the number of draws taken are as in
`s`. -/
def sameInputs (s t : State) : Prop := t.inputs = s.inputs ∧ t.offers = s.offers ∧ t.draws = s.draws

/-- A refusal: no register changes and the one response is `(err = 1, data = 0)` (R113). -/
def refusedTo (s t : State) : Prop :=
  sameRegisters s t ∧ respondedWith [⟨true, 0#32⟩] s t ∧ sameInputs s t

end Sys2Proof.Machine
end

