-- ==== Sys2Proof/Certificates/Slice0/Obligations.lean ====
section
/-! DEFINITION. The statements for the provers, from the numbered rules of spec/. Where a rule carries one of the spec's
own marks (a decision D<n> of 92_eei_decisions.md, or "derived"), the docstring says so. -/

open Sys2Proof Sys2Proof.Machine

/-! ### Encoding -/

/-- What `encode` presents for an instruction, every operand at every value of its field, the block reads back as that
instruction: the eleven command words (R50 to R55) and the two pin events (R60). -/
def Obligations.EncodedInstructionIsFetchedBack : Prop :=
  ∀ i : Instr, Input.fetch (.event (encode i)) = .run i

/-- A word the decoder accepts is the encoding of the instruction it reads: no bit of an accepted word is ignored
(R53, R56). -/
def Obligations.AcceptedWordIsItsEncoding : Prop :=
  ∀ (w : Word) (i : Instr), decode w = .ok i → encode i = .command w

/-- R50's equivalent form: a word passes the decoding procedure exactly when it agrees with some row of the opcode map
under that row's mask and the row's index and selector tests pass (R50, R54; decisions D18, D19). -/
def Obligations.WordAcceptedByMaskAndMatch : Prop :=
  ∀ (k : Config) (w : Word),
    refusal k w = none ↔
      ∃ r ∈ opcodeMap, w &&& r.mask = r.matchWord ∧ r.space.admits k (idxField w) = true ∧
        (r.selector = true → selField w ≠ 3#2)

/-- The machine follows R50's procedure on every word: an accepted word's instruction, well formed for the
configuration, is executed; a refused word changes nothing and is answered `(1, 0)` (R50; decisions D18, D19). -/
def Obligations.StepFollowsDecodingProcedure : Prop :=
  ∀ (s : State) (w : Word) (rest : List Input), s.inputs = .event (.command w) :: rest →
    (refusal s.cfg w = none →
      ∃ i, decode w = .ok i ∧ i.wf s.cfg = true ∧ step s = exec i { s with inputs := rest }) ∧
    (∀ r, refusal s.cfg w = some r → ∃ t, step s = .next t ∧ refusedTo { s with inputs := rest } t)

/-- Words of R64, written out in the spec, decode to the instructions they stand for. -/
def Obligations.SpecWordsDecode : Prop :=
  decode 0x1020FF9C#32 = .ok (.fstep 2#4 0xFF9C#16) ∧
  decode 0x11300000#32 = .ok (.fpeek 3#4) ∧
  decode 0x121000FF#32 = .ok (.frst 1#4 255#16) ∧
  decode 0x20000000#32 = .ok .poll ∧
  decode 0x21000000#32 = .ok (.rdst 0#4) ∧
  decode 0x30100000#32 = .ok (.norm 1#4) ∧
  decode 0x320405DC#32 = .ok (.ldep 0#4 .center 1500#16) ∧
  decode 0x33180A28#32 = .ok (.wrep 1#4 .high 2600#16) ∧
  decode 0x34040000#32 = .ok (.rdep 0#4 .center) ∧
  decode 0x40000000#32 = .ok .rdtime

/-- A step runs the decoded instruction: when the next input is a command word that decodes to an instruction well
formed for the configuration, the step is that instruction's `exec` on the state with the input taken. -/
def Obligations.StepRunsDecodedCommand : Prop :=
  ∀ (s : State) (w : Word) (i : Instr) (rest : List Input),
    s.inputs = .event (.command w) :: rest → decode w = .ok i → i.wf s.cfg = true →
      step s = exec i { s with inputs := rest }

/-- A pin's levels before and after select EDGE.RISE (`01`), EDGE.FALL (`10`) or no operation (`00`, `11`), and the step
runs the selected event (R60; decision D21). -/
def Obligations.StepRunsPinEvent : Prop :=
  ∀ (s : State) (c : Index) (rest : List Input),
    (s.inputs = .event (.pin c false true) :: rest → step s = exec (.edgeRise c) { s with inputs := rest }) ∧
    (s.inputs = .event (.pin c true false) :: rest → step s = exec (.edgeFall c) { s with inputs := rest }) ∧
    (∀ b, s.inputs = .event (.pin c b b) :: rest → step s = .next { s with inputs := rest })

/-- A table row's bits run next: when the decoder reads an instruction from them, the step after `withFetchWord` is that
instruction's `exec`, on any state (the model's own interface, log 11). -/
def Obligations.PresentedTableWordRunsNext : Prop :=
  ∀ (s : State) (nbits w : Nat) (i : Instr), decodeTableWord nbits w = some i →
    step (s.withFetchWord nbits w) = exec i s

/-! ### The whole machine -/

/-- Refusal: no register changes, the response is `(1, 0)`, nothing is remembered, and whether a word is refused depends
only on the word, `NCH` and `NFILT` (R113; decision D19). -/
def Obligations.RefusedWordChangesNothing : Prop :=
  ∀ (s : State) (w : Word) (rest : List Input) (r : RefuseReason),
    s.inputs = .event (.command w) :: rest → refusal s.cfg w = some r →
      (∃ t, step s = .next t ∧ refusedTo { s with inputs := rest } t) ∧
      ∀ k : Config, k.nch = s.cfg.nch → k.nfilt = s.cfg.nfilt → refusal k w = some r

/-- The `err` bit of a command's response is a function of the word, `NCH` and `NFILT` alone: two states that agree on
those answer with the same `err` (R16, R113). -/
def Obligations.ErrBitIndependentOfState : Prop :=
  ∀ (s₁ s₂ : State) (w : Word) (rest₁ rest₂ : List Input),
    s₁.cfg.nch = s₂.cfg.nch → s₁.cfg.nfilt = s₂.cfg.nfilt →
    s₁.inputs = .event (.command w) :: rest₁ → s₂.inputs = .event (.command w) :: rest₂ →
      ∃ t₁ t₂ a b, step s₁ = .next t₁ ∧ step s₂ = .next t₂ ∧
        respondedWith [a] s₁ t₁ ∧ respondedWith [b] s₂ t₂ ∧ a.err = b.err

/-- Every step completes, and every command is answered by exactly one response: no state is stuck, no step faults
(R118, R123). So every infinite sequence of inputs has an infinite execution from every state (R121). Where nothing is
listed a step takes what the free environment presents, or changes no register where that is nothing (the model's DESIGN
CHOICE of log 4). -/
def Obligations.EveryStepCompletes : Prop :=
  (∀ s : State, ∃ t, step s = .next t) ∧
  (∀ (s : State) (w : Word) (rest : List Input), s.inputs = .event (.command w) :: rest →
    ∃ t r, step s = .next t ∧ respondedWith [r] s t ∧ t.inputs = rest) ∧
  (∀ (env : Nat → Input) (s : State), ∃ σ : Nat → State, σ 0 = s ∧ isExecution env σ) ∧
  ∀ s : State, s.inputs = [] →
    step s = (Config.environment s.offers).elim (.next { s with offers := s.offers + 1 })
      fun x => step { s with inputs := [x], offers := s.offers + 1 }

/-- Every step keeps the type invariants: legal configuration and bank sizes, and every running value a member of
`FNum` in [-32768, 32767] (R28, R73; the spec marks both as derived). -/
def Obligations.StepKeepsTypeInvariant : Prop :=
  ∀ s t : State, s.typeInv → step s = .next t → t.typeInv

/-- The type invariants hold after reset, of the block as built and of every legal configuration (R28, R29). -/
def Obligations.TypeInvariantAtReset : Prop :=
  State.reset.typeInv ∧ ∀ k : Config, k.wf = true → (State.resetFor k).typeInv

/-- The "written by" column of R26, for every step that is not a reset: a register differs afterwards only if the input
is the one the table names, and the configuration never differs (R8, R26). -/
def Obligations.RegistersHaveOnlyTheirWriters : Prop :=
  ∀ (s t : State) (x : Input) (rest : List Input),
    s.inputs = x :: rest → isNotReset x = true → step s = .next t →
      t.cfg = s.cfg ∧
      (t.time ≠ s.time → ∃ d, x = .event (.advance d)) ∧
      (∀ f, t.avgAt f ≠ s.avgAt f → ∃ v, x = present (.fstep f v) ∨ x = present (.frst f v)) ∧
      ∀ c,
        ((t.channel c).riseTs ≠ (s.channel c).riseTs → x = present (.edgeRise c)) ∧
        ((t.channel c).raw ≠ (s.channel c).raw → x = present (.edgeFall c)) ∧
        ((t.channel c).staged ≠ (s.channel c).staged → x = present .poll) ∧
        ((t.channel c).nval ≠ (s.channel c).nval → x = present (.norm c)) ∧
        ∀ k, (t.channel c).endpoint k ≠ (s.channel c).endpoint k →
          ∃ u, x = present (.ldep c k u) ∨ x = present (.wrep c k u)

/-- What the host may rely on (R42, which the spec marks as derived). Whatever edges and advances fall between two host
commands, every register but `RAW`, `RISE_TS` and `TIME` keeps its value; so, on a channel whose endpoints are ordered
(the premise under which R98 leaves NORM's value to `normalize`), POLL, NORM c, RDNV c returns the normalization of the
`RAW[c]` current at the POLL, whatever edges and advances arrive in between. -/
def Obligations.PollNormRdnvSeesPolledWidth : Prop :=
  (∀ (s : State) (env rest : List Input), s.inputs = env ++ rest → (∀ x ∈ env, isEnv x = true) →
    ∃ t, runN env.length s = .next t ∧ t.inputs = rest ∧ t.responses = s.responses ∧ t.draws = s.draws ∧
      t.offers = s.offers ∧ t.cfg = s.cfg ∧ t.avg = s.avg ∧
      ∀ c, (t.channel c).staged = (s.channel c).staged ∧ (t.channel c).nval = (s.channel c).nval ∧
        ∀ k, (t.channel c).endpoint k = (s.channel c).endpoint k) ∧
  ∀ (s : State) (c : Index) (e₁ e₂ rest : List Input),
    s.banksOk → c.toNat < s.cfg.nch → (s.channel c).ordered = true →
    (∀ x ∈ e₁, isEnv x = true) → (∀ x ∈ e₂, isEnv x = true) →
    s.inputs = present .poll :: (e₁ ++ present (.norm c) :: (e₂ ++ present (.rdnv c) :: rest)) →
      ∃ t, runN (e₁.length + e₂.length + 3) s = .next t ∧ t.inputs = rest ∧
        respondedWith
          [⟨false, 0#32⟩,
           ⟨false, BitVec.ofInt 32 ((s.channel c).normalized s.cfg.normRound (s.channel c).raw)⟩,
           ⟨false, BitVec.ofInt 32 ((s.channel c).normalized s.cfg.normRound (s.channel c).raw)⟩] s t

/-- The reads RDST, RDNV, RDEP, RDTIME and FPEEK change no state, and repeating one responds the same (R38, which the
spec marks as derived). -/
def Obligations.ReadsHaveNoSideEffect : Prop :=
  ∀ (s : State) (c : Index) (k : Endpoint),
    ∀ i ∈ [Instr.rdst c, .rdnv c, .rdep c k, .rdtime, .fpeek c],
      ∃ t u r, exec i s = .next t ∧ sameRegisters s t ∧ sameInputs s t ∧ respondedWith [r] s t ∧
        exec i t = .next u ∧ respondedWith [r] t u

/-! ### Reset -/

/-- RESET puts every register at its reset value and leaves the configuration; what is presented while `rst` is asserted
leaves no trace and no response (R29, R139, R140; decisions D17, D26). -/
def Obligations.ResetRestoresEveryRegister : Prop :=
  ∀ (s : State) (during : List Event) (rest : List Input), s.inputs = .reset during :: rest →
    ∃ t, step s = .next t ∧ t.cfg = s.cfg ∧ t.time = 0#32 ∧
      t.channels = List.replicate s.cfg.nch
        ⟨0#32, s.cfg.rawDefault, s.cfg.rawDefault, 1000#16, 1500#16, 2000#16, 0#8⟩ ∧
      t.avg = List.replicate s.cfg.nfilt 0 ∧ t.inputs = rest ∧ t.responses = s.responses

/-- The state after reset, whatever the configuration: `NCH` channels and `NFILT` filters, each register at the reset
value of R29 (decision D17). -/
def Obligations.ResetValues : Prop :=
  State.reset = State.resetFor Config.built ∧
  ∀ k : Config, (State.resetFor k).cfg = k ∧ (State.resetFor k).time = 0#32 ∧
    (State.resetFor k).channels =
      List.replicate k.nch ⟨0#32, k.rawDefault, k.rawDefault, 1000#16, 1500#16, 2000#16, 0#8⟩ ∧
    (State.resetFor k).avg = List.replicate k.nfilt 0 ∧
    (∀ f, (State.resetFor k).avgAt f = 0) ∧
    ∀ c : Index, c.toNat < k.nch →
      (State.resetFor k).channel c =
        ⟨0#32, k.rawDefault, k.rawDefault, 1000#16, 1500#16, 2000#16, 0#8⟩

/-- The reset state satisfies the endpoint invariant, and each default is valid (R30). -/
def Obligations.ResetEndpointsOrdered : Prop :=
  ∀ (k : Config) (c : Index), c.toNat < k.nch →
    ((State.resetFor k).channel c).ordered = true ∧
    ∀ e : Endpoint, validEndpoint (((State.resetFor k).channel c).endpoint e) = true

/-! ### The capture family -/

/-- ADVANCE d (R79; decisions D4, D5): `TIME` modulo 2^32, nothing else; `ADVANCE 0` and `ADVANCE 2^32` change nothing,
and two advances equal one of their sum. -/
def Obligations.AdvanceIsModular : Prop :=
  ∀ (s : State) (rest : List Input),
    (∀ d, s.inputs = .event (.advance d) :: rest →
      ∃ t, step s = .next t ∧ t.time.toNat = (s.time.toNat + d) % 2 ^ 32 ∧ t.cfg = s.cfg ∧
        t.channels = s.channels ∧ t.avg = s.avg ∧ t.responses = s.responses ∧ t.draws = s.draws ∧
        t.offers = s.offers ∧ t.inputs = rest) ∧
    (∀ d, d = 0 ∨ d = 2 ^ 32 → s.inputs = .event (.advance d) :: rest →
      step s = .next { s with inputs := rest }) ∧
    ∀ a b, s.inputs = .event (.advance a) :: .event (.advance b) :: rest →
      runN 2 s = step { s with inputs := .event (.advance (a + b)) :: rest }

/-- EDGE.RISE c (R80): pin event `01`; on a present channel `RISE_TS[c] <- TIME` and nothing else, no response; on a
channel that is absent nothing. -/
def Obligations.EdgeRiseRecordsTime : Prop :=
  ∀ (s : State) (c : Index),
    decodePin c false true = some (.edgeRise c) ∧
    (s.banksOk → s.cfg.present c = true →
      ∃ t, exec (.edgeRise c) s = .next t ∧ t.channel c = { s.channel c with riseTs := s.time } ∧
        sameButChannel c s t ∧ respondedWith [] s t ∧ sameInputs s t) ∧
    (c.toNat < s.cfg.nch → s.cfg.present c = false → exec (.edgeRise c) s = .next s)

/-- EDGE.FALL c (R81): pin event `10`; on a present channel `RAW[c] <- (TIME - RISE_TS[c]) mod 2^32` and nothing else,
no response; on a channel that is absent nothing. -/
def Obligations.EdgeFallStoresDifference : Prop :=
  ∀ (s : State) (c : Index),
    decodePin c true false = some (.edgeFall c) ∧
    (s.banksOk → s.cfg.present c = true →
      ∃ t v, exec (.edgeFall c) s = .next t ∧ t.channel c = { s.channel c with raw := v } ∧
        (v.toNat : Int) = ((s.time.toNat : Int) - ((s.channel c).riseTs.toNat : Int)) % 2 ^ 32 ∧
        sameButChannel c s t ∧ respondedWith [] s t ∧ sameInputs s t) ∧
    (c.toNat < s.cfg.nch → s.cfg.present c = false → exec (.edgeFall c) s = .next s)

/-- An edge of an index that is no channel changes nothing. The spec gives such an index no pin and does not say what its
edge would do: the model's DESIGN CHOICE of log 7. -/
def Obligations.EdgeOfNoChannelHasNoEffect : Prop :=
  ∀ (s : State) (c : Index), s.cfg.nch ≤ c.toNat →
    exec (.edgeRise c) s = .next s ∧ exec (.edgeFall c) s = .next s

/-- On an absent channel `RISE_TS` stays 0 and `RAW` stays `RAW_DEFAULT`: the invariant holds after reset and every step,
a RESET included, keeps it (R82; decision D22). -/
def Obligations.AbsentChannelNeverCaptures : Prop :=
  (∀ k : Config, (State.resetFor k).absentInv) ∧
  ∀ s t : State, s.absentInv → step s = .next t → t.absentInv

/-- POLL (R83): one word; `STAGED[c] <- RAW[c]` on every channel in one step, nothing else, response `(0, 0)`; it leaves
every register as it is when each channel's staged width is its raw width already, and so does a POLL with no falling
edge since an earlier one, whatever else happens between the two, a RESET included. -/
def Obligations.PollStagesEveryChannel : Prop :=
  (∀ w : Word, opField w = 0x20#8 → decode w = if w = 0x20000000#32 then .ok .poll else .error .mbz) ∧
  (∀ s : State, ∃ t, exec .poll s = .next t ∧
    (∀ c, t.channel c = { s.channel c with staged := (s.channel c).raw }) ∧
    t.channels.length = s.channels.length ∧ t.cfg = s.cfg ∧ t.time = s.time ∧ t.avg = s.avg ∧
    respondedWith [⟨false, 0#32⟩] s t ∧ sameInputs s t) ∧
  (∀ s : State, (∀ ch ∈ s.channels, ch.staged = ch.raw) →
    ∃ t, exec .poll s = .next t ∧ sameRegisters s t ∧ respondedWith [⟨false, 0#32⟩] s t) ∧
  ∀ (s : State) (mid rest : List Input), s.inputs = present .poll :: (mid ++ present .poll :: rest) →
    (∀ x ∈ mid, ∀ c, x ≠ present (.edgeFall c)) →
      ∃ t u, runN (mid.length + 1) s = .next t ∧ runN (mid.length + 2) s = .next u ∧
        sameRegisters t u ∧ respondedWith [⟨false, 0#32⟩] t u ∧ u.inputs = rest

/-- RDST c (R84; decision D20): responds `STAGED[c]`, writes nothing; refused for an index that is no channel and for a
set must-be-zero bit. -/
def Obligations.RdstReadsStaged : Prop :=
  (∀ w : Word, opField w = 0x21#8 →
    decode w = if w &&& 0x000FFFFF#32 = 0#32 then .ok (.rdst (idxField w)) else .error .mbz) ∧
  ∀ (s : State) (c : Index),
    (c.toNat < s.cfg.nch →
      ∃ t, exec (.rdst c) s = .next t ∧ respondedWith [⟨false, (s.channel c).staged⟩] s t ∧
        sameRegisters s t ∧ sameInputs s t) ∧
    (s.cfg.nch ≤ c.toNat → ∃ t, exec (.rdst c) s = .next t ∧ refusedTo s t)

/-- The wraparound-safe difference (R85; the document requires it, the spec marks the law as derived): between a rising
edge of a present channel and the next falling edge considered, whatever else happens but a rising edge of the channel
and a reset, the stored width is the sum of the advances modulo 2^32, exact below 2^32. -/
def Obligations.CaptureMeasuresAcrossWrap : Prop :=
  ∀ (s : State) (c : Index) (mid rest : List Input),
    s.banksOk → s.cfg.present c = true →
    s.inputs = present (.edgeRise c) :: (mid ++ present (.edgeFall c) :: rest) →
    (∀ x ∈ mid, x ≠ present (.edgeRise c) ∧ isNotReset x = true) →
      ∃ t, runN (mid.length + 2) s = .next t ∧ t.inputs = rest ∧
        (t.channel c).raw.toNat = counts mid % 2 ^ 32 ∧
        (counts mid < 2 ^ 32 → (t.channel c).raw.toNat = counts mid)

/-- Repeated edges of one direction (R88; decision D21): RISE, RISE, FALL measures from the second RISE; RISE, FALL,
FALL stores at the second FALL the time since the same RISE. In every infinite execution without a RESET, whatever edges,
missed, repeated or late, its sequence has (R121), each FALL stores the sum of the advances since the latest RISE modulo
2^32, and a FALL with no RISE before it the time since the `RISE_TS` of the start (R87). -/
def Obligations.RepeatedEdges : Prop :=
  (∀ (s : State) (c : Index) (a b : Nat) (rest : List Input), s.banksOk → s.cfg.present c = true →
    (s.inputs = present (.edgeRise c) :: .event (.advance a) :: present (.edgeRise c) :: .event (.advance b) ::
        present (.edgeFall c) :: rest →
      ∃ t, runN 5 s = .next t ∧ t.inputs = rest ∧ (t.channel c).raw = BitVec.ofNat 32 b) ∧
    (s.inputs = present (.edgeRise c) :: .event (.advance a) :: present (.edgeFall c) :: .event (.advance b) ::
        present (.edgeFall c) :: rest →
      ∃ t, runN 5 s = .next t ∧ t.inputs = rest ∧ (t.channel c).raw = BitVec.ofNat 32 (a + b))) ∧
  ∀ (env : Nat → Input) (σ : Nat → State) (c : Index), isExecution env σ → (∀ n, isNotReset (env n) = true) →
    (σ 0).banksOk → (σ 0).cfg.present c = true →
    ∀ j, env j = present (.edgeFall c) →
      (∀ i, i < j → env i = present (.edgeRise c) → (∀ k, i < k → k < j → env k ≠ present (.edgeRise c)) →
        ((σ (j + 1)).channel c).raw = BitVec.ofNat 32 (counts (window env i j))) ∧
      ((∀ k, k < j → env k ≠ present (.edgeRise c)) →
        ((σ (j + 1)).channel c).raw =
          (σ 0).time + BitVec.ofNat 32 (counts (window env 0 j)) - ((σ 0).channel c).riseTs)

/-- Edge steps of different channels commute, and each touches only its channel's `RISE_TS` or `RAW` (R92, which the
spec marks as derived). -/
def Obligations.EdgesOfDifferentChannelsCommute : Prop :=
  ∀ (s : State) (c d : Index) (i j : Instr), c ≠ d →
    (i = .edgeRise c ∨ i = .edgeFall c) → (j = .edgeRise d ∨ j = .edgeFall d) →
      ∃ s₁ s₂ t, exec i s = .next s₁ ∧ exec j s₁ = .next t ∧ exec j s = .next s₂ ∧ exec i s₂ = .next t ∧
        sameButChannel c s s₁ ∧
        s₁.channel c = { s.channel c with riseTs := (s₁.channel c).riseTs, raw := (s₁.channel c).raw }

/-- A POLL that races a falling edge of a present channel sees the old width or the new one, by the order, never a
mixture; `RAW` ends the same (R37, R127 (c)). -/
def Obligations.PollRacingFallSeesOldOrNew : Prop :=
  ∀ (s : State) (c : Index) (rest : List Input), s.banksOk → s.cfg.present c = true →
    (s.inputs = present (.edgeFall c) :: present .poll :: rest →
      ∃ t, runN 2 s = .next t ∧ (t.channel c).staged = s.time - (s.channel c).riseTs ∧
        (t.channel c).raw = s.time - (s.channel c).riseTs) ∧
    (s.inputs = present .poll :: present (.edgeFall c) :: rest →
      ∃ t, runN 2 s = .next t ∧ (t.channel c).staged = (s.channel c).raw ∧
        (t.channel c).raw = s.time - (s.channel c).riseTs)

/-! ### The mapper family -/

/-- NORM c (R97): ordered endpoints give `normalize` of `STAGED[c]` on the channel's own endpoints, which fits `NVAL`; unordered ones give some 8-bit
value, stored and returned alike, with `err = 0` (R98; decision D10); only `NVAL[c]` is written; refused for an index
that is no channel and for a set must-be-zero bit. -/
def Obligations.NormWritesNormalizedValue : Prop :=
  (∀ w : Word, opField w = 0x30#8 →
    decode w = if w &&& 0x000FFFFF#32 = 0#32 then .ok (.norm (idxField w)) else .error .mbz) ∧
  ∀ (s : State) (c : Index),
    (s.banksOk → c.toNat < s.cfg.nch → (s.channel c).ordered = true →
      ∃ t v, exec (.norm c) s = .next t ∧
        v.toInt = normalizeWidth s.cfg.normRound (s.channel c).staged.toNat (s.channel c).epLow.toNat
          (s.channel c).epCenter.toNat (s.channel c).epHigh.toNat ∧
        t.channel c = { s.channel c with nval := v } ∧ sameButChannel c s t ∧
        respondedWith [⟨false, v.signExtend 32⟩] s t ∧ sameInputs s t) ∧
    (s.banksOk → c.toNat < s.cfg.nch → (s.channel c).ordered = false →
      ∃ t v, exec (.norm c) s = .next t ∧
        t.channel c = { s.channel c with nval := v } ∧ sameButChannel c s t ∧
        respondedWith [⟨false, v.signExtend 32⟩] s t ∧ t.inputs = s.inputs) ∧
    (s.cfg.nch ≤ c.toNat → ∃ t, exec (.norm c) s = .next t ∧ refusedTo s t)

/-- With ordered endpoints NORM depends on `STAGED[c]` and the endpoints of channel c alone, never on `RAW` or anything
else: two states that agree on them (and on `NCH` and `NORM_ROUND`) get the same value and the same response (R97,
R151). -/
def Obligations.NormReadsOnlyStagedAndEndpoints : Prop :=
  ∀ (s₁ s₂ : State) (c : Index), s₁.banksOk → s₂.banksOk → c.toNat < s₁.cfg.nch →
    s₁.cfg.nch = s₂.cfg.nch → s₁.cfg.normRound = s₂.cfg.normRound →
    (s₁.channel c).ordered = true → (s₁.channel c).staged = (s₂.channel c).staged →
    (∀ k, (s₁.channel c).endpoint k = (s₂.channel c).endpoint k) →
      ∃ t₁ t₂ r, exec (.norm c) s₁ = .next t₁ ∧ exec (.norm c) s₂ = .next t₂ ∧
        (t₁.channel c).nval = (t₂.channel c).nval ∧ respondedWith [r] s₁ t₁ ∧ respondedWith [r] s₂ t₂

/-- RDNV c (R99; decision D29): responds `sext_32(NVAL[c])`, writes nothing; refused as NORM. -/
def Obligations.RdnvReadsStoredValue : Prop :=
  (∀ w : Word, opField w = 0x31#8 →
    decode w = if w &&& 0x000FFFFF#32 = 0#32 then .ok (.rdnv (idxField w)) else .error .mbz) ∧
  ∀ (s : State) (c : Index),
    (c.toNat < s.cfg.nch →
      ∃ t d, exec (.rdnv c) s = .next t ∧ d.toInt = (s.channel c).nval.toInt ∧
        respondedWith [⟨false, d⟩] s t ∧ sameRegisters s t ∧ sameInputs s t) ∧
    (s.cfg.nch ≤ c.toNat → ∃ t, exec (.rdnv c) s = .next t ∧ refusedTo s t)

/-- LDEP c, k, u (R100; the bounds' inclusivity is D9): the operand when 500 <= u <= 2500, the selected endpoint's
default 1000, 1500 or 2000 otherwise; that endpoint is written and no other register; refused for an index that is no
channel, selector 3, or a set must-be-zero bit. -/
def Obligations.LdepStoresOperandOrDefault : Prop :=
  (∀ w : Word, opField w = 0x32#8 →
    (w &&& 0x00030000#32 ≠ 0#32 ∨ selField w = 3#2 → ∃ r, decode w = .error r) ∧
    ∀ k : Endpoint, w &&& 0x00030000#32 = 0#32 → selField w = k.sel →
      decode w = .ok (.ldep (idxField w) k (immField w))) ∧
  ∀ (s : State) (c : Index) (k : Endpoint) (u : Half),
    (s.banksOk → c.toNat < s.cfg.nch →
      ∃ t v, exec (.ldep c k u) s = .next t ∧
        (500 ≤ u.toNat ∧ u.toNat ≤ 2500 → v = u) ∧
        (¬(500 ≤ u.toNat ∧ u.toNat ≤ 2500) →
          (k = .low → v = 1000#16) ∧ (k = .center → v = 1500#16) ∧ (k = .high → v = 2000#16)) ∧
        t.channel c = (s.channel c).setEndpoint k v ∧ sameButChannel c s t ∧
        respondedWith [⟨false, v.setWidth 32⟩] s t ∧ sameInputs s t) ∧
    (s.cfg.nch ≤ c.toNat → ∃ t, exec (.ldep c k u) s = .next t ∧ refusedTo s t)

/-- WREP c, k, u (R101; decision D11): any operand is stored, in the selected endpoint and no other register; refused as
LDEP. -/
def Obligations.WrepStoresOperand : Prop :=
  (∀ w : Word, opField w = 0x33#8 →
    (w &&& 0x00030000#32 ≠ 0#32 ∨ selField w = 3#2 → ∃ r, decode w = .error r) ∧
    ∀ k : Endpoint, w &&& 0x00030000#32 = 0#32 → selField w = k.sel →
      decode w = .ok (.wrep (idxField w) k (immField w))) ∧
  ∀ (s : State) (c : Index) (k : Endpoint) (u : Half),
    (s.banksOk → c.toNat < s.cfg.nch →
      ∃ t, exec (.wrep c k u) s = .next t ∧
        t.channel c = (s.channel c).setEndpoint k u ∧ (t.channel c).endpoint k = u ∧
        (∀ j, j ≠ k → (t.channel c).endpoint j = (s.channel c).endpoint j) ∧ sameButChannel c s t ∧
        respondedWith [⟨false, u.setWidth 32⟩] s t ∧ sameInputs s t) ∧
    (s.cfg.nch ≤ c.toNat → ∃ t, exec (.wrep c k u) s = .next t ∧ refusedTo s t)

/-- RDEP c, k (R102; decision D11): responds the selected endpoint, writes nothing; refused for an index that is no
channel, selector 3, or a set must-be-zero bit. -/
def Obligations.RdepReadsEndpoint : Prop :=
  (∀ w : Word, opField w = 0x34#8 →
    (w &&& 0x0003FFFF#32 ≠ 0#32 ∨ selField w = 3#2 → ∃ r, decode w = .error r) ∧
    ∀ k : Endpoint, w &&& 0x0003FFFF#32 = 0#32 → selField w = k.sel →
      decode w = .ok (.rdep (idxField w) k)) ∧
  ∀ (s : State) (c : Index) (k : Endpoint),
    (c.toNat < s.cfg.nch →
      ∃ t, exec (.rdep c k) s = .next t ∧
        respondedWith [⟨false, ((s.channel c).endpoint k).setWidth 32⟩] s t ∧
        sameRegisters s t ∧ sameInputs s t) ∧
    (s.cfg.nch ≤ c.toNat → ∃ t, exec (.rdep c k) s = .next t ∧ refusedTo s t)

/-- Loading a record (R62, R100, R104): LDEP3 leaves each endpoint at its operand or its own default, each in
[500, 2500], whatever the other two are; WREP3 leaves the three operands. -/
def Obligations.RecordLoadsPerEndpoint : Prop :=
  ∀ (s : State) (c : Index) (l m h : Half) (rest : List Input), s.banksOk → c.toNat < s.cfg.nch →
    (s.inputs = ldep3 c l m h ++ rest →
      ∃ t, runN 3 s = .next t ∧ t.inputs = rest ∧ sameButChannel c s t ∧
        t.channel c = { s.channel c with epLow := if 500 ≤ l.toNat ∧ l.toNat ≤ 2500 then l else 1000#16
                                         epCenter := if 500 ≤ m.toNat ∧ m.toNat ≤ 2500 then m else 1500#16
                                         epHigh := if 500 ≤ h.toNat ∧ h.toNat ≤ 2500 then h else 2000#16 } ∧
        ∀ k, 500 ≤ ((t.channel c).endpoint k).toNat ∧ ((t.channel c).endpoint k).toNat ≤ 2500) ∧
    (s.inputs = wrep3 c l m h ++ rest →
      ∃ t, runN 3 s = .next t ∧ t.inputs = rest ∧ sameButChannel c s t ∧
        t.channel c = { s.channel c with epLow := l, epCenter := m, epHigh := h })

/-- `NR` (R95; decision D12), named by `NORM_ROUND`: FLOOR is the greatest integer not above q; TRUNC agrees with FLOOR
for q >= 0 and is odd; NEAREST is within one half of q, away from zero at an exact half, and odd; each is non-decreasing
and returns q itself when q is an integer. `normalize` is `NR` of the exact quotient of R94, written out. -/
def Obligations.NormRoundFunctions : Prop :=
  (∀ q : Rat, (nrRound .floor q : Rat) ≤ q ∧ q < (nrRound .floor q : Rat) + 1) ∧
  (∀ q : Rat, (0 ≤ q → nrRound .trunc q = nrRound .floor q) ∧ nrRound .trunc (-q) = -nrRound .trunc q) ∧
  (∀ q : Rat, |(nrRound .nearest q : Rat) - q| ≤ 1 / 2 ∧
    (|(nrRound .nearest q : Rat) - q| = 1 / 2 → |q| ≤ |(nrRound .nearest q : Rat)|) ∧
    nrRound .nearest (-q) = -nrRound .nearest q) ∧
  (∀ (m : NormRound) (q₁ q₂ : Rat), q₁ ≤ q₂ → nrRound m q₁ ≤ nrRound m q₂) ∧
  (∀ (m : NormRound) (n : Int), nrRound m (n : Rat) = n) ∧
  ∀ (m : NormRound) (raw L C H : Nat), L < C → C < H →
    normalizeWidth m raw L C H = nrRound m
      (if C ≤ raw then (((min raw H : Nat) : Rat) - (C : Rat)) * 100 / ((H : Rat) - (C : Rat))
       else (((max raw L : Nat) : Rat) - (C : Rat)) * 100 / ((C : Rat) - (L : Rat)))

/-- Range (R105; the document's words, which the spec marks as derived): for ordered endpoints and every raw width the
quotient and the normalized value lie in [-100, 100], for every `NORM_ROUND`. -/
def Obligations.NormalizeStaysInRange : Prop :=
  ∀ (m : NormRound) (raw L C H : Nat), L < C → C < H →
    (-100 ≤ quot raw L C H ∧ quot raw L C H ≤ 100) ∧
    -100 ≤ normalizeWidth m raw L C H ∧ normalizeWidth m raw L C H ≤ 100

/-- Monotonicity (R106; the document's words, which the spec marks as derived). -/
def Obligations.NormalizeIsMonotone : Prop :=
  ∀ (m : NormRound) (raw₁ raw₂ L C H : Nat), L < C → C < H → raw₁ ≤ raw₂ →
    normalizeWidth m raw₁ L C H ≤ normalizeWidth m raw₂ L C H

/-- The exact endpoints (R107; the document's words, which the spec marks as derived). -/
def Obligations.NormalizeExactAtEndpoints : Prop :=
  ∀ (m : NormRound) (L C H : Nat), L < C → C < H →
    normalizeWidth m C L C H = 0 ∧ normalizeWidth m L L C H = -100 ∧ normalizeWidth m H L C H = 100

/-- Saturation (R108; the document's words, which the spec marks as derived). -/
def Obligations.NormalizeSaturates : Prop :=
  ∀ (m : NormRound) (raw L C H : Nat), L < C → C < H →
    (raw ≤ L → normalizeWidth m raw L C H = -100) ∧ (H ≤ raw → normalizeWidth m raw L C H = 100)

/-- The unsigned form of a FLOOR realisation equals `normalize`, and its products fit 23 bits for 16-bit endpoints
(R96, which the spec marks as derived). The subtractions and the divisions are those of natural numbers. -/
def Obligations.FloorFormIsNormalize : Prop :=
  ∀ raw L C H : Nat, L < C → C < H → H < 2 ^ 16 →
    (C ≤ raw →
      normalizeWidth .floor raw L C H = (((min raw H - C) * 100 / (H - C) : Nat) : Int) ∧
      (min raw H - C) * 100 ≤ 6553500) ∧
    (raw < C →
      normalizeWidth .floor raw L C H = -100 + (((max raw L - L) * 100 / (C - L) : Nat) : Int) ∧
      (max raw L - L) * 100 ≤ 6553500)

/-- Just below the center (R97's corner cases, conflict C7), and a span of 1 (R97, R109). -/
def Obligations.NormalizeJustBelowCenter : Prop :=
  ∀ (L C H : Nat), L < C → C < H →
    (100 < C - L → normalizeWidth .floor (C - 1) L C H = -1 ∧ normalizeWidth .trunc (C - 1) L C H = 0) ∧
    (200 < C - L → normalizeWidth .nearest (C - 1) L C H = 0) ∧
    (100 < C - L → C - L ≤ 200 → normalizeWidth .nearest (C - 1) L C H = -1) ∧
    (H = C + 1 → ∀ (m : NormRound) (raw : Nat), C ≤ raw →
      normalizeWidth m raw L C H = if raw = C then 0 else 100)

/-- Resolution (R109, which the spec marks as derived): one count moves the exact quotient by 100/(H - C) on the upper
half; with the default endpoints five counts make one unit under FLOOR. -/
def Obligations.NormalizeResolution : Prop :=
  (∀ raw L C H : Nat, L < C → C < H → C ≤ raw → raw < H →
    quot (raw + 1) L C H - quot raw L C H = 100 / ((H : Rat) - (C : Rat))) ∧
  ∀ raw : Nat,
    (1500 ≤ raw → raw ≤ 2000 → normalizeWidth .floor raw 1000 1500 2000 = (((raw - 1500) / 5 : Nat) : Int)) ∧
    (1000 ≤ raw → raw ≤ 1499 →
      normalizeWidth .floor raw 1000 1500 2000 = (((raw - 1000) / 5 : Nat) : Int) - 100)

/-- The poll step of the document (R44, R62): where the endpoints of every channel are ordered (the premise under which
R98 leaves NORM's value to `normalize`), TICKPOLL stages every width and leaves every channel's `NVAL` the normalization
of the width it had, and responds 0 and then each value, in the order of the channels. -/
def Obligations.TickpollNormalizesEveryChannel : Prop :=
  ∀ (s : State) (rest : List Input), s.banksOk →
    (∀ c : Index, c.toNat < s.cfg.nch → (s.channel c).ordered = true) →
    s.inputs = tickpoll s.cfg ++ rest →
      ∃ t, runN (s.cfg.nch + 1) s = .next t ∧ t.inputs = rest ∧ t.time = s.time ∧ t.avg = s.avg ∧
        (∀ c : Index, c.toNat < s.cfg.nch →
          t.channel c =
            { s.channel c with staged := (s.channel c).raw
                               nval := BitVec.ofInt 8 ((s.channel c).normalized s.cfg.normRound (s.channel c).raw) }) ∧
        respondedWith
          (⟨false, 0#32⟩ :: (List.range s.cfg.nch).map fun n =>
            ⟨false, BitVec.ofInt 32 ((s.channel (BitVec.ofNat 4 n)).normalized s.cfg.normRound
              (s.channel (BitVec.ofNat 4 n)).raw)⟩) s t

/-! ### The filter family -/

/-- `rnd` (R66; decision D13): it rounds to the nearest multiple of the spacing 2^(max(E, emin) - p + 1), where
2^E <= |q| < 2^(E+1), an exact half to the even multiple; it is non-decreasing, odd, fixes `FNum` and every integer of
magnitude at most 2^p; EXACT does not round. -/
def Obligations.RndRoundsToNearestEven : Prop :=
  (∀ q : Rat, rnd .exact q = q) ∧
  (∀ fmt : FiltFmt, rnd fmt 0 = 0) ∧
  (∀ (fmt : FiltFmt) (p emin : Int) (q : Rat), fmtParams fmt = some (p, emin) → q ≠ 0 →
    ∃ E n : Int, (2 : Rat) ^ E ≤ |q| ∧ |q| < (2 : Rat) ^ (E + 1) ∧
      rnd fmt q = (n : Rat) * (2 : Rat) ^ (max E emin - p + 1) ∧
      |rnd fmt q - q| ≤ (2 : Rat) ^ (max E emin - p + 1) / 2 ∧
      (|rnd fmt q - q| = (2 : Rat) ^ (max E emin - p + 1) / 2 → n % 2 = 0)) ∧
  (∀ (fmt : FiltFmt) (q₁ q₂ : Rat), q₁ ≤ q₂ → rnd fmt q₁ ≤ rnd fmt q₂) ∧
  (∀ (fmt : FiltFmt) (q : Rat), rnd fmt (-q) = -rnd fmt q) ∧
  (∀ (fmt : FiltFmt) (q : Rat), isFNum fmt q → rnd fmt q = q) ∧
  (∀ (fmt : FiltFmt) (p emin n : Int), fmtParams fmt = some (p, emin) → |(n : Rat)| ≤ (2 : Rat) ^ p →
    rnd fmt (n : Rat) = (n : Rat))

/-- `round_int` (R68; decision D14): AWAY is `sign(q) * floor(|q| + 1/2)`, EVEN is the nearest integer with a half to
the even one, and they differ only when q is an integer plus one half. -/
def Obligations.RoundIntTies : Prop :=
  ∀ q : Rat,
    (roundInt .away q : Rat) = (SignType.sign q : Rat) * (|q| + 1 / 2).floor ∧
    |(roundInt .even q : Rat) - q| ≤ 1 / 2 ∧
    (|(roundInt .even q : Rat) - q| = 1 / 2 → roundInt .even q % 2 = 0) ∧
    (roundInt .away q ≠ roundInt .even q → ∃ n : Int, q = (n : Rat) + 1 / 2)

/-- FSTEP f, x (R69): the product, the sum and the quotient, each the exact result rounded once by `rnd` (R67);
`AVG[f]` is written and nothing else; the response is the rounded new value; refused for an index that is no filter and
for a set must-be-zero bit. -/
def Obligations.FstepAdvancesFilter : Prop :=
  (∀ w : Word, opField w = 0x10#8 →
    decode w = if w &&& 0x000F0000#32 = 0#32 then .ok (.fstep (idxField w) (immField w)) else .error .mbz) ∧
  ∀ (s : State) (f : Index) (x : Half),
    (s.banksOk → f.toNat < s.cfg.nfilt →
      ∃ t a, exec (.fstep f x) s = .next t ∧
        a = rnd s.cfg.filtFmt
              (rnd s.cfg.filtFmt
                (rnd s.cfg.filtFmt (s.avgAt f * rnd s.cfg.filtFmt (s.cfg.weight f : Rat)) +
                  rnd s.cfg.filtFmt (x.toInt : Rat)) /
                rnd s.cfg.filtFmt ((s.cfg.weight f : Rat) + 1)) ∧
        t.avgAt f = a ∧ sameButFilter f s t ∧
        respondedWith [⟨false, BitVec.ofInt 32 (roundInt s.cfg.roundTie a)⟩] s t ∧ sameInputs s t) ∧
    (s.cfg.nfilt ≤ f.toNat → ∃ t, exec (.fstep f x) s = .next t ∧ refusedTo s t)

/-- FPEEK f (R70; decision D16): responds the rounded running value, writes nothing; refused for an index that is no
filter and for a set must-be-zero bit. -/
def Obligations.FpeekReadsFilter : Prop :=
  (∀ w : Word, opField w = 0x11#8 →
    decode w = if w &&& 0x000FFFFF#32 = 0#32 then .ok (.fpeek (idxField w)) else .error .mbz) ∧
  ∀ (s : State) (f : Index),
    (f.toNat < s.cfg.nfilt →
      ∃ t, exec (.fpeek f) s = .next t ∧
        respondedWith [⟨false, BitVec.ofInt 32 (roundInt s.cfg.roundTie (s.avgAt f))⟩] s t ∧
        sameRegisters s t ∧ sameInputs s t) ∧
    (s.cfg.nfilt ≤ f.toNat → ∃ t, exec (.fpeek f) s = .next t ∧ refusedTo s t)

/-- FRST f, x (R71; decision D15): `AVG[f]` becomes the integer x exactly, nothing else is written, the response is
`(0, 0)`, and a following FPEEK f responds x; refused for an index that is no filter and for a set must-be-zero bit. -/
def Obligations.FrstForcesFilter : Prop :=
  (∀ w : Word, opField w = 0x12#8 →
    decode w = if w &&& 0x000F0000#32 = 0#32 then .ok (.frst (idxField w) (immField w)) else .error .mbz) ∧
  ∀ (s : State) (f : Index) (x : Half),
    (s.banksOk → f.toNat < s.cfg.nfilt →
      ∃ t u, exec (.frst f x) s = .next t ∧ t.avgAt f = (x.toInt : Rat) ∧ sameButFilter f s t ∧
        respondedWith [⟨false, 0#32⟩] s t ∧ sameInputs s t ∧
        exec (.fpeek f) t = .next u ∧ respondedWith [⟨false, x.signExtend 32⟩] t u) ∧
    (s.cfg.nfilt ≤ f.toNat → ∃ t, exec (.frst f x) s = .next t ∧ refusedTo s t)

/-- Pass-through (R72; the document's words, which the spec marks as derived): with weight 0, FSTEP f, x sets `AVG[f]` to
x and responds x, for every x, every running value before, every `FILT_FMT` and either `ROUND_TIE`. -/
def Obligations.ZeroWeightPassesThrough : Prop :=
  ∀ (s : State) (f : Index) (x : Half), s.banksOk → f.toNat < s.cfg.nfilt → s.cfg.weight f = 0 →
    ∃ t, exec (.fstep f x) s = .next t ∧ t.avgAt f = (x.toInt : Rat) ∧
      respondedWith [⟨false, x.signExtend 32⟩] s t

/-- Boundedness (R73, which the spec marks as derived): a filter stays in the integer hull of its value and its sample,
the response is in the operand range, and no intermediate exceeds 2^23 in magnitude, for every `FILT_FMT`. -/
def Obligations.FilterStaysInHull : Prop :=
  ∀ (s : State) (f : Index) (x : Half) (m M : Int), s.banksOk → f.toNat < s.cfg.nfilt →
    -32768 ≤ m → M ≤ 32767 → (m : Rat) ≤ s.avgAt f → s.avgAt f ≤ (M : Rat) → m ≤ x.toInt → x.toInt ≤ M →
      ∃ t, exec (.fstep f x) s = .next t ∧ (m : Rat) ≤ t.avgAt f ∧ t.avgAt f ≤ (M : Rat) ∧
        (m ≤ roundInt s.cfg.roundTie (t.avgAt f) ∧ roundInt s.cfg.roundTie (t.avgAt f) ≤ M) ∧
        |rnd s.cfg.filtFmt (s.avgAt f * rnd s.cfg.filtFmt (s.cfg.weight f : Rat))| ≤ (2 : Rat) ^ (23 : Nat) ∧
        |rnd s.cfg.filtFmt
            (rnd s.cfg.filtFmt (s.avgAt f * rnd s.cfg.filtFmt (s.cfg.weight f : Rat)) +
              rnd s.cfg.filtFmt (x.toInt : Rat))| ≤ (2 : Rat) ^ (23 : Nat)

/-- Fixed point (R74, which the spec marks as derived): `FSTEP f, v` on `AVG[f] = v` leaves it and responds v, for every
`FILT_FMT`. -/
def Obligations.ConstantInputIsFixedPoint : Prop :=
  ∀ (s : State) (f : Index) (x : Half), s.banksOk → f.toNat < s.cfg.nfilt → s.avgAt f = (x.toInt : Rat) →
    ∃ t, exec (.fstep f x) s = .next t ∧ t.avgAt f = (x.toInt : Rat) ∧
      respondedWith [⟨false, x.signExtend 32⟩] s t

/-- The closed form in exact arithmetic (R76, first sentence; the spec marks it as derived): the new value moves toward
the sample by the fraction 1/(s+1) of the distance. -/
def Obligations.ExactStepMovesByFraction : Prop :=
  ∀ (s : State) (f : Index) (x : Half), s.banksOk → f.toNat < s.cfg.nfilt → s.cfg.filtFmt = .exact →
    ∃ t, exec (.fstep f x) s = .next t ∧
      t.avgAt f = s.avgAt f + ((x.toInt : Rat) - s.avgAt f) / ((s.cfg.weight f : Rat) + 1)

/-- Convergence in exact arithmetic (R75 (a), which the spec marks as derived): n FSTEPs of a constant shrink the
distance by (s/(s+1))^n, and the response is the constant as soon as that distance is below 1/2. -/
def Obligations.ExactFilterConverges : Prop :=
  ∀ (s : State) (f : Index) (x : Half) (n : Nat) (rest : List Input),
    s.banksOk → f.toNat < s.cfg.nfilt → s.cfg.filtFmt = .exact → 0 < n →
    s.inputs = List.replicate n (present (.fstep f x)) ++ rest →
      ∃ t, runN n s = .next t ∧ t.inputs = rest ∧
        t.avgAt f - (x.toInt : Rat) =
          ((s.cfg.weight f : Rat) / ((s.cfg.weight f : Rat) + 1)) ^ n * (s.avgAt f - (x.toInt : Rat)) ∧
        (((s.cfg.weight f : Rat) / ((s.cfg.weight f : Rat) + 1)) ^ n * |s.avgAt f - (x.toInt : Rat)| < 1 / 2 →
          t.responses.getLast? = some ⟨false, x.signExtend 32⟩)

/-- Convergence under the named obligation `P_CONV` (R75, U6): where `P_CONV` holds of the configuration, a constant sample
x is responded by every FSTEP f, x from some number of steps on, whatever running value the filter starts from. `P_CONV`
is a premise here and not a fact of the model; log 15 says of which configurations it is known. -/
def Obligations.FilterConvergesUnderPConv : Prop :=
  ∀ (s : State) (f : Index) (x : Half), s.typeInv → f.toNat < s.cfg.nfilt →
    P_CONV s.cfg →
      ∃ n₀, ∀ (n : Nat) (rest : List Input), n₀ ≤ n → 0 < n →
        ∃ t, runN n { s with inputs := List.replicate n (present (.fstep f x)) ++ rest } = .next t ∧
          t.inputs = rest ∧ t.responses.getLast? = some ⟨false, x.signExtend 32⟩

/-- `P_CONV` is more than the arithmetic of R66 and R67 gives (R75 (b), which the spec evaluates on some weights and
constants and does not prove): in BINARY32 a filter of weight 252 forced to 16579 responds 16579 to every FSTEP of
16580, under either tie rule; so `P_CONV` fails of every such configuration. A finding of the model (log 15), not a
sentence of the spec. -/
def Obligations.Binary32FilterCanStall : Prop :=
  (∀ (tie : RoundTie) (n : Nat), roundInt tie (filterIterate .binary32 252 16580 n 16579) = 16579) ∧
  ∀ (k : Config) (f : Index), k.filtFmt = .binary32 → f.toNat < k.nfilt → k.weight f = 252 → ¬P_CONV k

/-! ### The system family -/

/-- RDTIME (R111; decision D5): one word; responds `TIME`, writes nothing. -/
def Obligations.RdtimeReadsTime : Prop :=
  (∀ w : Word, opField w = 0x40#8 → decode w = if w = 0x40000000#32 then .ok .rdtime else .error .mbz) ∧
  ∀ s : State, ∃ t, exec .rdtime s = .next t ∧ respondedWith [⟨false, s.time⟩] s t ∧
    sameRegisters s t ∧ sameInputs s t

/-- Durations (R112, which the spec marks as derived): of the results of two RDTIMEs, whatever edges, advances and
commands but no RESET stand between them, the difference modulo 2^32 is the sum of the advances modulo 2^32, the elapsed
count itself when that is below 2^32. -/
def Obligations.RdtimeDifferenceIsDuration : Prop :=
  ∀ (s : State) (mid rest : List Input), (∀ x ∈ mid, isNotReset x = true) →
    s.inputs = present .rdtime :: (mid ++ present .rdtime :: rest) →
      ∃ t t₀ t₁ between, runN (mid.length + 2) s = .next t ∧ t.inputs = rest ∧
        respondedWith (⟨false, t₀⟩ :: (between ++ [⟨false, t₁⟩])) s t ∧
        (t₁ - t₀).toNat = counts mid % 2 ^ 32 ∧ (counts mid < 2 ^ 32 → (t₁ - t₀).toNat = counts mid)
end

