-- ==== Sys2Proof/Laws/State.lean ====
section
/-! SUPPORT. One lemma per field per update of the state, each true by definition. -/

namespace Sys2Proof.Machine

@[simp] theorem consume_cfg (s : State) (rest : List Input) : (s.consume rest).cfg = s.cfg := rfl
@[simp] theorem consume_time (s : State) (rest : List Input) : (s.consume rest).time = s.time := rfl
@[simp] theorem consume_channels (s : State) (rest : List Input) : (s.consume rest).channels = s.channels := rfl
@[simp] theorem consume_avg (s : State) (rest : List Input) : (s.consume rest).avg = s.avg := rfl
@[simp] theorem consume_inputs (s : State) (rest : List Input) : (s.consume rest).inputs = rest := rfl
@[simp] theorem consume_offers (s : State) (rest : List Input) : (s.consume rest).offers = s.offers := rfl
@[simp] theorem consume_responses (s : State) (rest : List Input) : (s.consume rest).responses = s.responses := rfl
@[simp] theorem consume_draws (s : State) (rest : List Input) : (s.consume rest).draws = s.draws := rfl

@[simp] theorem respond_cfg (s : State) (d : Word) : (s.respond d).cfg = s.cfg := rfl
@[simp] theorem respond_time (s : State) (d : Word) : (s.respond d).time = s.time := rfl
@[simp] theorem respond_channels (s : State) (d : Word) : (s.respond d).channels = s.channels := rfl
@[simp] theorem respond_avg (s : State) (d : Word) : (s.respond d).avg = s.avg := rfl
@[simp] theorem respond_inputs (s : State) (d : Word) : (s.respond d).inputs = s.inputs := rfl
@[simp] theorem respond_offers (s : State) (d : Word) : (s.respond d).offers = s.offers := rfl
@[simp] theorem respond_responses (s : State) (d : Word) : (s.respond d).responses = s.responses ++ [Response.accepted d] := rfl
@[simp] theorem respond_draws (s : State) (d : Word) : (s.respond d).draws = s.draws := rfl

@[simp] theorem refuse_cfg (s : State) : (s.refuse).cfg = s.cfg := rfl
@[simp] theorem refuse_time (s : State) : (s.refuse).time = s.time := rfl
@[simp] theorem refuse_channels (s : State) : (s.refuse).channels = s.channels := rfl
@[simp] theorem refuse_avg (s : State) : (s.refuse).avg = s.avg := rfl
@[simp] theorem refuse_inputs (s : State) : (s.refuse).inputs = s.inputs := rfl
@[simp] theorem refuse_offers (s : State) : (s.refuse).offers = s.offers := rfl
@[simp] theorem refuse_responses (s : State) : (s.refuse).responses = s.responses ++ [Response.refused] := rfl
@[simp] theorem refuse_draws (s : State) : (s.refuse).draws = s.draws := rfl

@[simp] theorem setChannel_cfg (s : State) (c : Index) (ch : Channel) : (s.setChannel c ch).cfg = s.cfg := rfl
@[simp] theorem setChannel_time (s : State) (c : Index) (ch : Channel) : (s.setChannel c ch).time = s.time := rfl
@[simp] theorem setChannel_channels (s : State) (c : Index) (ch : Channel) : (s.setChannel c ch).channels = s.channels.set c.toNat ch := rfl
@[simp] theorem setChannel_avg (s : State) (c : Index) (ch : Channel) : (s.setChannel c ch).avg = s.avg := rfl
@[simp] theorem setChannel_inputs (s : State) (c : Index) (ch : Channel) : (s.setChannel c ch).inputs = s.inputs := rfl
@[simp] theorem setChannel_offers (s : State) (c : Index) (ch : Channel) : (s.setChannel c ch).offers = s.offers := rfl
@[simp] theorem setChannel_responses (s : State) (c : Index) (ch : Channel) : (s.setChannel c ch).responses = s.responses := rfl
@[simp] theorem setChannel_draws (s : State) (c : Index) (ch : Channel) : (s.setChannel c ch).draws = s.draws := rfl

@[simp] theorem setAvg_cfg (s : State) (f : Index) (a : Rat) : (s.setAvg f a).cfg = s.cfg := rfl
@[simp] theorem setAvg_time (s : State) (f : Index) (a : Rat) : (s.setAvg f a).time = s.time := rfl
@[simp] theorem setAvg_channels (s : State) (f : Index) (a : Rat) : (s.setAvg f a).channels = s.channels := rfl
@[simp] theorem setAvg_avg (s : State) (f : Index) (a : Rat) : (s.setAvg f a).avg = s.avg.set f.toNat a := rfl
@[simp] theorem setAvg_inputs (s : State) (f : Index) (a : Rat) : (s.setAvg f a).inputs = s.inputs := rfl
@[simp] theorem setAvg_offers (s : State) (f : Index) (a : Rat) : (s.setAvg f a).offers = s.offers := rfl
@[simp] theorem setAvg_responses (s : State) (f : Index) (a : Rat) : (s.setAvg f a).responses = s.responses := rfl
@[simp] theorem setAvg_draws (s : State) (f : Index) (a : Rat) : (s.setAvg f a).draws = s.draws := rfl

@[simp] theorem advance_cfg (s : State) (d : Nat) : (s.advance d).cfg = s.cfg := rfl
@[simp] theorem advance_time (s : State) (d : Nat) : (s.advance d).time = s.time + BitVec.ofNat 32 d := rfl
@[simp] theorem advance_channels (s : State) (d : Nat) : (s.advance d).channels = s.channels := rfl
@[simp] theorem advance_avg (s : State) (d : Nat) : (s.advance d).avg = s.avg := rfl
@[simp] theorem advance_inputs (s : State) (d : Nat) : (s.advance d).inputs = s.inputs := rfl
@[simp] theorem advance_offers (s : State) (d : Nat) : (s.advance d).offers = s.offers := rfl
@[simp] theorem advance_responses (s : State) (d : Nat) : (s.advance d).responses = s.responses := rfl
@[simp] theorem advance_draws (s : State) (d : Nat) : (s.advance d).draws = s.draws := rfl

@[simp] theorem countDraw_cfg (s : State) : (s.countDraw).cfg = s.cfg := rfl
@[simp] theorem countDraw_time (s : State) : (s.countDraw).time = s.time := rfl
@[simp] theorem countDraw_channels (s : State) : (s.countDraw).channels = s.channels := rfl
@[simp] theorem countDraw_avg (s : State) : (s.countDraw).avg = s.avg := rfl
@[simp] theorem countDraw_inputs (s : State) : (s.countDraw).inputs = s.inputs := rfl
@[simp] theorem countDraw_offers (s : State) : (s.countDraw).offers = s.offers := rfl
@[simp] theorem countDraw_responses (s : State) : (s.countDraw).responses = s.responses := rfl
@[simp] theorem countDraw_draws (s : State) : (s.countDraw).draws = s.draws + 1 := rfl

@[simp] theorem countOffer_cfg (s : State) : (s.countOffer).cfg = s.cfg := rfl
@[simp] theorem countOffer_time (s : State) : (s.countOffer).time = s.time := rfl
@[simp] theorem countOffer_channels (s : State) : (s.countOffer).channels = s.channels := rfl
@[simp] theorem countOffer_avg (s : State) : (s.countOffer).avg = s.avg := rfl
@[simp] theorem countOffer_inputs (s : State) : (s.countOffer).inputs = s.inputs := rfl
@[simp] theorem countOffer_offers (s : State) : (s.countOffer).offers = s.offers + 1 := rfl
@[simp] theorem countOffer_responses (s : State) : (s.countOffer).responses = s.responses := rfl
@[simp] theorem countOffer_draws (s : State) : (s.countOffer).draws = s.draws := rfl

@[simp] theorem doReset_cfg (s : State) : (s.doReset).cfg = s.cfg := rfl
@[simp] theorem doReset_time (s : State) : (s.doReset).time = 0#32 := rfl
@[simp] theorem doReset_channels (s : State) : (s.doReset).channels = List.replicate s.cfg.nch (Channel.atReset s.cfg.rawDefault) := rfl
@[simp] theorem doReset_avg (s : State) : (s.doReset).avg = List.replicate s.cfg.nfilt 0 := rfl
@[simp] theorem doReset_inputs (s : State) : (s.doReset).inputs = s.inputs := rfl
@[simp] theorem doReset_offers (s : State) : (s.doReset).offers = s.offers := rfl
@[simp] theorem doReset_responses (s : State) : (s.doReset).responses = s.responses := rfl
@[simp] theorem doReset_draws (s : State) : (s.doReset).draws = s.draws := rfl

@[simp] theorem withFetchWord_cfg (s : State) (nbits w : Nat) : (s.withFetchWord nbits w).cfg = s.cfg := rfl
@[simp] theorem withFetchWord_time (s : State) (nbits w : Nat) : (s.withFetchWord nbits w).time = s.time := rfl
@[simp] theorem withFetchWord_channels (s : State) (nbits w : Nat) : (s.withFetchWord nbits w).channels = s.channels := rfl
@[simp] theorem withFetchWord_avg (s : State) (nbits w : Nat) : (s.withFetchWord nbits w).avg = s.avg := rfl
@[simp] theorem withFetchWord_inputs (s : State) (nbits w : Nat) : (s.withFetchWord nbits w).inputs = tableInput nbits w :: s.inputs := rfl
@[simp] theorem withFetchWord_offers (s : State) (nbits w : Nat) : (s.withFetchWord nbits w).offers = s.offers := rfl
@[simp] theorem withFetchWord_responses (s : State) (nbits w : Nat) : (s.withFetchWord nbits w).responses = s.responses := rfl
@[simp] theorem withFetchWord_draws (s : State) (nbits w : Nat) : (s.withFetchWord nbits w).draws = s.draws := rfl

@[simp] theorem resetFor_cfg (k : Config) : (State.resetFor k).cfg = k := rfl
@[simp] theorem resetFor_time (k : Config) : (State.resetFor k).time = 0#32 := rfl
@[simp] theorem resetFor_channels (k : Config) : (State.resetFor k).channels = List.replicate k.nch (Channel.atReset k.rawDefault) := rfl
@[simp] theorem resetFor_avg (k : Config) : (State.resetFor k).avg = List.replicate k.nfilt 0 := rfl
@[simp] theorem resetFor_inputs (k : Config) : (State.resetFor k).inputs = [] := rfl
@[simp] theorem resetFor_offers (k : Config) : (State.resetFor k).offers = 0 := rfl
@[simp] theorem resetFor_responses (k : Config) : (State.resetFor k).responses = [] := rfl
@[simp] theorem resetFor_draws (k : Config) : (State.resetFor k).draws = 0 := rfl

@[simp] theorem channel_consume (s : State) (rest : List Input) (d : Index) : (s.consume rest).channel d = s.channel d := rfl
@[simp] theorem avgAt_consume (s : State) (rest : List Input) (g : Index) : (s.consume rest).avgAt g = s.avgAt g := rfl
@[simp] theorem channel_respond (s : State) (v : Word) (d : Index) : (s.respond v).channel d = s.channel d := rfl
@[simp] theorem avgAt_respond (s : State) (d : Word) (g : Index) : (s.respond d).avgAt g = s.avgAt g := rfl
@[simp] theorem channel_refuse (s : State) (d : Index) : (s.refuse).channel d = s.channel d := rfl
@[simp] theorem avgAt_refuse (s : State) (g : Index) : (s.refuse).avgAt g = s.avgAt g := rfl
@[simp] theorem avgAt_setChannel (s : State) (c : Index) (ch : Channel) (g : Index) : (s.setChannel c ch).avgAt g = s.avgAt g := rfl
@[simp] theorem channel_setAvg (s : State) (f : Index) (a : Rat) (d : Index) : (s.setAvg f a).channel d = s.channel d := rfl
@[simp] theorem channel_advance (s : State) (n : Nat) (d : Index) : (s.advance n).channel d = s.channel d := rfl
@[simp] theorem avgAt_advance (s : State) (d : Nat) (g : Index) : (s.advance d).avgAt g = s.avgAt g := rfl
@[simp] theorem channel_countDraw (s : State) (d : Index) : (s.countDraw).channel d = s.channel d := rfl
@[simp] theorem avgAt_countDraw (s : State) (g : Index) : (s.countDraw).avgAt g = s.avgAt g := rfl
@[simp] theorem channel_countOffer (s : State) (d : Index) : (s.countOffer).channel d = s.channel d := rfl
@[simp] theorem avgAt_countOffer (s : State) (g : Index) : (s.countOffer).avgAt g = s.avgAt g := rfl
@[simp] theorem channel_withFetchWord (s : State) (nbits w : Nat) (d : Index) : (s.withFetchWord nbits w).channel d = s.channel d := rfl
@[simp] theorem avgAt_withFetchWord (s : State) (nbits w : Nat) (g : Index) : (s.withFetchWord nbits w).avgAt g = s.avgAt g := rfl

end Sys2Proof.Machine
end

