-- ==== Sys2Proof/Laws/Ops.lean ====
section
/-! SUPPORT. What each shared operation over the registers can do: reads after writes, the index tests, and the sizes of
the banks. -/

namespace Sys2Proof.Machine

theorem Config.nch_le_of_wf {k : Config} (h : k.wf = true) : 1 ≤ k.nch ∧ k.nch ≤ 16 := by
  simp only [Config.wf, Bool.and_eq_true, decide_eq_true_eq] at h; omega

theorem Config.nfilt_le_of_wf {k : Config} (h : k.wf = true) : 1 ≤ k.nfilt ∧ k.nfilt ≤ 16 := by
  simp only [Config.wf, Bool.and_eq_true, decide_eq_true_eq] at h; omega

/-- A present channel is a channel. -/
theorem Config.lt_of_present {k : Config} {c : Index} (h : k.present c = true) : c.toNat < k.nch := by
  by_contra hc
  simp only [Config.nch, not_lt] at hc
  simp [Config.present, List.getElem?_eq_none hc] at h

theorem Config.weight_le (k : Config) (f : Index) : k.weight f ≤ 255 := by
  unfold Config.weight; omega

theorem toNat_ne_of_ne {c d : Index} (h : d ≠ c) : d.toNat ≠ c.toNat :=
  fun e => h (BitVec.eq_of_toNat_eq e)

/-- A channel reads as it was last written. -/
theorem channel_setChannel_self (s : State) (c : Index) (ch : Channel) (h : c.toNat < s.channels.length) :
    (s.setChannel c ch).channel c = ch := by
  simp [State.channel, h]

/-- A write of a channel leaves every other channel. -/
theorem channel_setChannel_ne (s : State) {c d : Index} (ch : Channel) (h : d ≠ c) :
    (s.setChannel c ch).channel d = s.channel d := by
  have := toNat_ne_of_ne h
  simp [State.channel, List.getD_eq_getElem?_getD, List.getElem?_set_ne this.symm]

theorem avgAt_setAvg_self (s : State) (f : Index) (a : Rat) (h : f.toNat < s.avg.length) :
    (s.setAvg f a).avgAt f = a := by
  simp [State.avgAt, h]

theorem avgAt_setAvg_ne (s : State) {f g : Index} (a : Rat) (h : g ≠ f) : (s.setAvg f a).avgAt g = s.avgAt g := by
  have := toNat_ne_of_ne h
  simp [State.avgAt, List.getD_eq_getElem?_getD, List.getElem?_set_ne this.symm]

/-- A running value that was built is a member of the bank. -/
theorem avgAt_mem (s : State) (f : Index) (h : f.toNat < s.avg.length) : s.avgAt f ∈ s.avg := by
  simp [State.avgAt, List.getD_eq_getElem?_getD, h]

/-- Every channel of a bank to which `g` is applied reads as `g` of what it was, a channel that does not exist as long
as `g` fixes the reset value. -/
theorem channel_map (s : State) (g : Channel → Channel) (c : Index)
    (hg : g (Channel.atReset s.cfg.rawDefault) = Channel.atReset s.cfg.rawDefault) :
    State.channel { s with channels := s.channels.map g } c = g (s.channel c) := by
  by_cases h : c.toNat < s.channels.length
  · simp [State.channel, h]
  · have h' := not_lt.mp h
    simp [State.channel, List.getD_eq_getElem?_getD, h', hg]

/-- All that a command on a channel can do: its body on that channel's registers, or a refusal. -/
theorem onChannel_cases (s : State) (c : Index) (body : Channel → State) :
    (c.toNat < s.cfg.nch ∧ s.onChannel c body = body (s.channel c)) ∨
    (s.cfg.nch ≤ c.toNat ∧ s.onChannel c body = s.refuse) := by
  unfold State.onChannel channelIndexOk
  by_cases h : c.toNat < s.cfg.nch
  · exact .inl ⟨h, by simp [h]⟩
  · exact .inr ⟨not_lt.mp h, by simp [h]⟩

theorem onChannel_of_lt (s : State) {c : Index} (body : Channel → State) (h : c.toNat < s.cfg.nch) :
    s.onChannel c body = body (s.channel c) := by simp [State.onChannel, channelIndexOk, h]

theorem onChannel_of_ge (s : State) {c : Index} (body : Channel → State) (h : s.cfg.nch ≤ c.toNat) :
    s.onChannel c body = s.refuse := by simp [State.onChannel, channelIndexOk, not_lt.mpr h]

/-- All that a command on a filter can do: its body on that filter's running value, or a refusal. -/
theorem onFilter_cases (s : State) (f : Index) (body : Rat → State) :
    (f.toNat < s.cfg.nfilt ∧ s.onFilter f body = body (s.avgAt f)) ∨
    (s.cfg.nfilt ≤ f.toNat ∧ s.onFilter f body = s.refuse) := by
  unfold State.onFilter filterIndexOk
  by_cases h : f.toNat < s.cfg.nfilt
  · exact .inl ⟨h, by simp [h]⟩
  · exact .inr ⟨not_lt.mp h, by simp [h]⟩

theorem onFilter_of_lt (s : State) {f : Index} (body : Rat → State) (h : f.toNat < s.cfg.nfilt) :
    s.onFilter f body = body (s.avgAt f) := by simp [State.onFilter, filterIndexOk, h]

theorem onFilter_of_ge (s : State) {f : Index} (body : Rat → State) (h : s.cfg.nfilt ≤ f.toNat) :
    s.onFilter f body = s.refuse := by simp [State.onFilter, filterIndexOk, not_lt.mpr h]

/-- All that a pin event can do: its body on the channel's registers when the channel is present, nothing otherwise. -/
theorem onPin_cases (s : State) (c : Index) (body : Channel → Channel) :
    (s.cfg.present c = true ∧ s.onPin c body = s.setChannel c (body (s.channel c))) ∨
    (s.cfg.present c = false ∧ s.onPin c body = s) := by
  unfold State.onPin
  cases h : s.cfg.present c
  · exact .inr ⟨rfl, by simp⟩
  · exact .inl ⟨rfl, by simp⟩

/-- Two writes of different channels commute. -/
theorem setChannel_comm (s : State) {c d : Index} (a b : Channel) (h : d ≠ c) :
    (s.setChannel c a).setChannel d b = (s.setChannel d b).setChannel c a := by
  have := toNat_ne_of_ne h
  simp [State.setChannel, List.set_comm _ _ this.symm]

/-! The sizes of the banks stay. -/

theorem banksOk_setChannel {s : State} (h : s.banksOk) (c : Index) (ch : Channel) : (s.setChannel c ch).banksOk := by
  simpa [State.banksOk] using h

theorem banksOk_setAvg {s : State} (h : s.banksOk) (f : Index) (a : Rat) : (s.setAvg f a).banksOk := by
  simpa [State.banksOk] using h

theorem banksOk_respond {s : State} (h : s.banksOk) (d : Word) : (s.respond d).banksOk := h

theorem banksOk_refuse {s : State} (h : s.banksOk) : s.refuse.banksOk := h

theorem banksOk_countOffer {s : State} (h : s.banksOk) : s.countOffer.banksOk := h

theorem banksOk_consume {s : State} (h : s.banksOk) (rest : List Input) : (s.consume rest).banksOk := h

theorem banksOk_resetFor {k : Config} (h : k.wf = true) : (State.resetFor k).banksOk := by
  simp [State.banksOk, h]

/-! Runs. -/

theorem runN_zero (s : State) : runN 0 s = .next s := rfl

/-- One more step in front of a run. -/
theorem runN_succ {s t : State} (n : Nat) (h : step s = .next t) : runN (n + 1) s = runN n t := by
  have : Sys2Proof.core.step s = Host.Outcome.next t := h
  simp only [runN, Host.Core.run, this]
  rfl

/-- A step takes the first input and performs it. -/
theorem step_cons {s : State} {x : Input} {rest : List Input} (h : s.inputs = x :: rest) :
    step s = (s.consume rest).perform x.fetch := by
  simp [step, State.takeInput, h]

/-- With nothing listed the free environment presents the input, if it presents one. -/
theorem step_offered {s : State} {x : Input} (h : s.inputs = []) (hx : Config.environment s.offers = some x) :
    step s = s.countOffer.perform x.fetch := by
  simp [step, State.takeInput, h, hx]

/-- With nothing presented every register stays as it is. -/
theorem step_idle {s : State} (h : s.inputs = []) (hx : Config.environment s.offers = none) :
    step s = .next s.countOffer := by
  simp [step, State.takeInput, h, hx]

/-- All that a step can do: perform a listed input or the free environment's, or pass. -/
theorem step_cases (s : State) :
    (∃ x rest, s.inputs = x :: rest ∧ step s = (s.consume rest).perform x.fetch) ∨
    (∃ x : Input, s.inputs = [] ∧ step s = s.countOffer.perform x.fetch) ∨
    (s.inputs = [] ∧ step s = .next s.countOffer) := by
  cases h : s.inputs with
  | cons x rest => exact .inl ⟨x, rest, rfl, step_cons h⟩
  | nil =>
    cases hx : Config.environment s.offers with
    | some x => exact .inr (.inl ⟨x, rfl, step_offered h hx⟩)
    | none => exact .inr (.inr ⟨rfl, step_idle h hx⟩)

end Sys2Proof.Machine
end

