-- ==== Sys2Proof/Laws/Bits.lean ====
section
/-! SUPPORT. The fields of an assembled command word, the must-be-zero bits in terms of the fields, and the opcode
values. -/

namespace Sys2Proof

theorem opField_mkWord (o : BitVec 8) (i : Index) (k : BitVec 2) (m : Half) : opField (mkWord o i k m) = o := by
  unfold opField mkWord; ext j hj; simp; grind

theorem idxField_mkWord (o : BitVec 8) (i : Index) (k : BitVec 2) (m : Half) : idxField (mkWord o i k m) = i := by
  unfold idxField mkWord; ext j hj; simp; grind

theorem selField_mkWord (o : BitVec 8) (i : Index) (k : BitVec 2) (m : Half) : selField (mkWord o i k m) = k := by
  unfold selField mkWord; ext j hj; simp; grind

theorem mbzField_mkWord (o : BitVec 8) (i : Index) (k : BitVec 2) (m : Half) : mbzField (mkWord o i k m) = 0#2 := by
  unfold mbzField mkWord; ext j hj; simp; grind

theorem immField_mkWord (o : BitVec 8) (i : Index) (k : BitVec 2) (m : Half) : immField (mkWord o i k m) = m := by
  unfold immField mkWord; ext j hj; simp; grind

/-- A word whose bits 17:16 are zero is assembled from its fields. -/
theorem mkWord_fields (w : Word) (h : mbzField w = 0#2) :
    mkWord (opField w) (idxField w) (selField w) (immField w) = w := by
  have e : mkWord (opField w) (idxField w) (selField w) (immField w) =
      opField w ++ idxField w ++ selField w ++ mbzField w ++ immField w := by rw [h]; rfl
  rw [e]
  unfold opField idxField selField mbzField immField
  ext j hj
  simp
  grind

/-- An opcode is the one its value names. -/
theorem Opcode.ofBits_bits (o : Opcode) : Opcode.ofBits o.bits = some o := by cases o <;> decide

/-- The value of the opcode that a value names is that value. -/
theorem Opcode.bits_of_ofBits {b : BitVec 8} {o : Opcode} (h : Opcode.ofBits b = some o) : o.bits = b := by
  simpa using List.find?_some h

/-- A selector names the endpoint whose selector it is. -/
theorem Endpoint.ofSel_sel (k : Endpoint) : Endpoint.ofSel k.sel = some k := by cases k <;> decide

theorem Endpoint.sel_of_ofSel {b : BitVec 2} {k : Endpoint} (h : Endpoint.ofSel b = some k) : k.sel = b := by
  revert h; revert b; cases k <;> decide

theorem Endpoint.ofSel_eq_none {b : BitVec 2} : Endpoint.ofSel b = none ↔ b = 3#2 := by
  revert b; decide

/-- A word has no bit of a mask exactly when it has none of the mask's bits one by one. -/
theorem and_eq_zero_iff (w m : Word) : w &&& m = 0#32 ↔ ∀ j < 32, m.getLsbD j = true → w.getLsbD j = false := by
  constructor
  · intro h j hj hm
    have := congrArg (fun v : Word => v.getLsbD j) h
    simpa [hm] using this
  · intro h
    apply BitVec.eq_of_getLsbD_eq
    intro j hj
    cases hm : m.getLsbD j <;> simp [hm]
    exact h j hj hm

/-- A field is zero exactly when its bits are. -/
theorem extractLsb'_eq_zero_iff (w : Word) (a n : Nat) :
    w.extractLsb' a n = 0#n ↔ ∀ j < n, w.getLsbD (a + j) = false := by
  constructor
  · intro h j hj
    have := congrArg (fun v : BitVec n => v.getLsbD j) h
    simpa [hj] using this
  · intro h
    apply BitVec.eq_of_getLsbD_eq
    intro j hj
    simp [hj, h j hj]

/-- The must-be-zero bits of each format, field by field (R53). -/
theorem zeroMask_n (w : Word) : w &&& Format.zeroMask .n = 0#32 ↔
    mbzField w = 0#2 ∧ idxField w = 0#4 ∧ selField w = 0#2 ∧ immField w = 0#16 := by
  simp only [and_eq_zero_iff, Format.zeroMask, mbzField, idxField, selField, immField, extractLsb'_eq_zero_iff,
    Nat.forall_lt_succ_right]
  simp
  tauto

theorem zeroMask_i (w : Word) : w &&& Format.zeroMask .i = 0#32 ↔
    mbzField w = 0#2 ∧ selField w = 0#2 ∧ immField w = 0#16 := by
  simp only [and_eq_zero_iff, Format.zeroMask, mbzField, selField, immField, extractLsb'_eq_zero_iff,
    Nat.forall_lt_succ_right]
  simp
  tauto

theorem zeroMask_x (w : Word) : w &&& Format.zeroMask .x = 0#32 ↔ mbzField w = 0#2 ∧ selField w = 0#2 := by
  simp only [and_eq_zero_iff, Format.zeroMask, mbzField, selField, extractLsb'_eq_zero_iff, Nat.forall_lt_succ_right]
  simp
  tauto

theorem zeroMask_s (w : Word) : w &&& Format.zeroMask .s = 0#32 ↔ mbzField w = 0#2 ∧ immField w = 0#16 := by
  simp only [and_eq_zero_iff, Format.zeroMask, mbzField, immField, extractLsb'_eq_zero_iff, Nat.forall_lt_succ_right]
  simp
  tauto

theorem zeroMask_e (w : Word) : w &&& Format.zeroMask .e = 0#32 ↔ mbzField w = 0#2 := by
  simp only [and_eq_zero_iff, Format.zeroMask, mbzField, extractLsb'_eq_zero_iff, Nat.forall_lt_succ_right]
  simp

/-- All that the decoder can answer with: the opcode's own instruction, read from a word that has none of its format's
must-be-zero bits, and whose selector, where the format has one, names an endpoint. -/
theorem decode_eq_ok {w : Word} {i : Instr} (h : decode w = .ok i) :
    ∃ o, Opcode.ofBits (opField w) = some o ∧ w &&& o.format.zeroMask = 0#32 ∧ o.operands w = .ok i := by
  unfold decode at h
  split at h
  · cases h
  · rename_i o ho
    by_cases hm : w &&& o.format.zeroMask = 0#32
    · exact ⟨o, ho, hm, by simpa [hm] using h⟩
    · simp [hm] at h

end Sys2Proof
end

