-- ==== Sys2Proof/Laws/Rounding.lean ====
section
/-! SUPPORT. The rounding functions of the filter and of the interpolator: what each answers, and that each is monotone
and fixes the integers. -/

namespace Sys2Proof.Machine

/-- `floor` as Mathlib writes it. -/
theorem floor_eq (q : Rat) : q.floor = ⌊q⌋ := rfl

/-- `pow2` is the integer power of 2. -/
theorem pow2_eq (e : Int) : pow2 e = (2 : Rat) ^ e := by
  cases e with
  | ofNat n => simp [pow2]
  | negSucc n => simp [pow2, zpow_negSucc]

/-- The magnitude of a rational, from its numerator and denominator. -/
theorem abs_eq_div (q : Rat) : |q| = (q.num.natAbs : Rat) / (q.den : Rat) := by
  conv_lhs => rw [← Rat.num_div_den q]
  rw [abs_div, ← Int.cast_abs, Int.abs_eq_natAbs]
  simp

/-- `floorLog2 q` is the integer E with `2^E <= |q| < 2^(E+1)` (R66). -/
theorem floorLog2_spec {q : Rat} (hq : q ≠ 0) :
    (2 : Rat) ^ floorLog2 q ≤ |q| ∧ |q| < (2 : Rat) ^ (floorLog2 q + 1) := by
  have hn : q.num.natAbs ≠ 0 := by simpa using hq
  have hd : q.den ≠ 0 := q.den_nz
  have n1 := Nat.log2_self_le hn
  have n2 := @Nat.lt_log2_self q.num.natAbs
  have d1 := Nat.log2_self_le hd
  have d2 := @Nat.lt_log2_self q.den
  rw [abs_eq_div]
  unfold floorLog2
  simp only [pow2_eq]
  set n := q.num.natAbs
  set d := q.den
  have hdp : (0 : Rat) < d := by exact_mod_cast Nat.pos_of_ne_zero hd
  have n1' : (2 : Rat) ^ (n.log2 : Int) ≤ n := by rw [zpow_natCast]; exact_mod_cast n1
  have n2' : (n : Rat) < (2 : Rat) ^ ((n.log2 : Int) + 1) := by
    rw [← Nat.cast_succ, zpow_natCast]; exact_mod_cast n2
  have d1' : (2 : Rat) ^ (d.log2 : Int) ≤ d := by rw [zpow_natCast]; exact_mod_cast d1
  have d2' : (d : Rat) < (2 : Rat) ^ ((d.log2 : Int) + 1) := by
    rw [← Nat.cast_succ, zpow_natCast]; exact_mod_cast d2
  have two : (2 : Rat) ≠ 0 := by norm_num
  have lo : (2 : Rat) ^ ((n.log2 : Int) - d.log2 - 1) ≤ n / d := by
    rw [le_div_iff₀ hdp]
    calc (2 : Rat) ^ ((n.log2 : Int) - d.log2 - 1) * d
        ≤ (2 : Rat) ^ ((n.log2 : Int) - d.log2 - 1) * (2 : Rat) ^ ((d.log2 : Int) + 1) := by gcongr
      _ = (2 : Rat) ^ (n.log2 : Int) := by rw [← zpow_add₀ two]; congr 1; ring
      _ ≤ n := n1'
  have hi : (n : Rat) / d < (2 : Rat) ^ ((n.log2 : Int) - d.log2 + 1) := by
    rw [div_lt_iff₀ hdp]
    calc (n : Rat) < (2 : Rat) ^ ((n.log2 : Int) + 1) := n2'
      _ = (2 : Rat) ^ ((n.log2 : Int) - d.log2 + 1) * (2 : Rat) ^ (d.log2 : Int) := by
          rw [← zpow_add₀ two]; congr 1; ring
      _ ≤ _ := by gcongr
  split
  · exact ⟨by assumption, hi⟩
  · refine ⟨lo, ?_⟩
    rw [sub_add_cancel]; exact not_le.mp (by assumption)

/-- `nearest_even`: an integer within one half, even when exactly one half away. -/
theorem nearestEven_spec (q : Rat) :
    |(nearestEven q : Rat) - q| ≤ 1 / 2 ∧ (|(nearestEven q : Rat) - q| = 1 / 2 → nearestEven q % 2 = 0) := by
  have h0 := Int.floor_le q
  have h1 := Int.lt_floor_add_one q
  unfold nearestEven
  rw [floor_eq]
  split_ifs with a b c
  · constructor
    · rw [abs_le]; constructor <;> linarith
    · intro h; rw [abs_of_nonpos (by linarith)] at h; linarith
  · push_cast
    constructor
    · rw [abs_le]; constructor <;> linarith
    · intro h; rw [abs_of_nonneg (by linarith)] at h; linarith
  · refine ⟨?_, fun _ => c⟩
    rw [abs_le]; constructor <;> linarith
  · refine ⟨?_, fun _ => by omega⟩
    push_cast
    rw [abs_le]; constructor <;> linarith

/-- An integer within one half of `q`, even when exactly one half away, is `nearestEven q`. -/
theorem nearestEven_unique {q : Rat} {n : Int} (h : |(n : Rat) - q| ≤ 1 / 2)
    (he : |(n : Rat) - q| = 1 / 2 → n % 2 = 0) : nearestEven q = n := by
  obtain ⟨h', he'⟩ := nearestEven_spec q
  set m := nearestEven q
  by_contra hne
  have hle : |((m : Rat) - n)| ≤ 1 := by
    calc |((m : Rat) - n)| = |((m : Rat) - q) - ((n : Rat) - q)| := by ring_nf
      _ ≤ |(m : Rat) - q| + |(n : Rat) - q| := abs_sub _ _
      _ ≤ 1 := by linarith
  have hge : (1 : Rat) ≤ |((m : Rat) - n)| := by
    rw [← Int.cast_sub, ← Int.cast_abs]
    exact_mod_cast Int.one_le_abs (sub_ne_zero.mpr hne)
  have tri : |((m : Rat) - n)| ≤ |(m : Rat) - q| + |(n : Rat) - q| := by
    calc |((m : Rat) - n)| = |((m : Rat) - q) - ((n : Rat) - q)| := by ring_nf
      _ ≤ _ := abs_sub _ _
  have em := he' (by linarith)
  have en := he (by linarith)
  have : |m - n| = 1 := by
    have : |((m : Rat) - n)| = 1 := le_antisymm hle hge
    rw [← Int.cast_sub, ← Int.cast_abs] at this
    exact_mod_cast this
  rcases abs_eq (by norm_num : (0 : Int) ≤ 1) |>.mp this with h1 | h1 <;> omega

@[simp] theorem nearestEven_intCast (n : Int) : nearestEven (n : Rat) = n :=
  nearestEven_unique (by simp) (by simp)

/-- `nearest_even` is odd. -/
theorem nearestEven_neg (q : Rat) : nearestEven (-q) = -nearestEven q := by
  obtain ⟨h, he⟩ := nearestEven_spec q
  have e : |((-nearestEven q : Int) : Rat) - -q| = |(nearestEven q : Rat) - q| := by
    rw [← abs_neg]; congr 1; push_cast; ring
  exact nearestEven_unique (by rw [e]; exact h) (fun hh => by have := he (by rw [← e]; exact hh); omega)

/-- `nearest_even` is non-decreasing. -/
theorem nearestEven_mono {a b : Rat} (h : a ≤ b) : nearestEven a ≤ nearestEven b := by
  obtain ⟨ha, ea⟩ := nearestEven_spec a
  obtain ⟨hb, eb⟩ := nearestEven_spec b
  by_contra hc
  have hc' : (nearestEven b : Rat) + 1 ≤ nearestEven a := by exact_mod_cast not_le.mp hc
  obtain ⟨a1, a2⟩ := abs_le.mp ha
  obtain ⟨b1, b2⟩ := abs_le.mp hb
  have hab : a = b := by linarith
  rw [hab] at hc; omega

/-- `nearest_away` in the words of R68. -/
theorem nearestAway_eq (q : Rat) : (nearestAway q : Rat) = (SignType.sign q : Rat) * (⌊|q| + 1 / 2⌋ : Int) := by
  unfold nearestAway
  simp only [floor_eq]
  rcases lt_trichotomy q 0 with h | h | h
  · rw [if_neg (not_le.mpr h), sign_neg h, abs_of_neg h]; simp
  · subst h; norm_num
  · rw [if_pos h.le, sign_pos h, abs_of_pos h]; simp

/-- `nearest_away` is odd. -/
theorem nearestAway_neg (q : Rat) : nearestAway (-q) = -nearestAway q := by
  unfold nearestAway
  simp only [floor_eq]
  rcases lt_trichotomy q 0 with h | h | h
  · rw [if_pos (by linarith), if_neg (not_le.mpr h)]; simp
  · subst h; norm_num
  · rw [if_neg (by linarith), if_pos h.le]; simp

@[simp] theorem nearestAway_intCast (n : Int) : nearestAway (n : Rat) = n := by
  unfold nearestAway
  simp only [floor_eq]
  have h2 : ⌊(n : Rat) + 1 / 2⌋ = n := by rw [Int.floor_eq_iff]; constructor <;> linarith
  have h3 : ⌊-(n : Rat) + 1 / 2⌋ = -n := by rw [Int.floor_eq_iff]; push_cast; constructor <;> linarith
  rw [h2, h3]; simp

/-- `nearest_away` is non-decreasing. -/
theorem nearestAway_mono {a b : Rat} (h : a ≤ b) : nearestAway a ≤ nearestAway b := by
  unfold nearestAway
  simp only [floor_eq]
  split_ifs with ha hb hb
  · exact Int.floor_mono (by linarith)
  · exact absurd (ha.trans h) hb
  · have h1 : 0 ≤ ⌊-a + 1 / 2⌋ := Int.floor_nonneg.mpr (by linarith)
    have h2 : 0 ≤ ⌊b + 1 / 2⌋ := Int.floor_nonneg.mpr (by linarith)
    omega
  · have := Int.floor_mono (show -b + 1 / 2 ≤ -a + 1 / 2 by linarith)
    omega

/-- `nearest_away`: an integer within one half. -/
theorem nearestAway_spec (q : Rat) : |(nearestAway q : Rat) - q| ≤ 1 / 2 := by
  unfold nearestAway
  simp only [floor_eq]
  split_ifs with h
  · have h0 := Int.floor_le (q + 1 / 2)
    have h1 := Int.lt_floor_add_one (q + 1 / 2)
    rw [abs_le]; constructor <;> linarith
  · have h0 := Int.floor_le (-q + 1 / 2)
    have h1 := Int.lt_floor_add_one (-q + 1 / 2)
    push_cast
    rw [abs_le]; constructor <;> linarith

@[simp] theorem truncInt_intCast (n : Int) : truncInt (n : Rat) = n := by
  have : (-(n : Rat)).floor = -n := by rw [← Int.cast_neg]; exact Int.floor_intCast (R := Rat) _
  have h2 : (n : Rat).floor = n := Int.floor_intCast (R := Rat) _
  unfold truncInt; rw [this, h2]; simp

/-- `trunc` is non-decreasing. -/
theorem truncInt_mono {a b : Rat} (h : a ≤ b) : truncInt a ≤ truncInt b := by
  unfold truncInt
  simp only [floor_eq]
  split_ifs with ha hb hb
  · exact Int.floor_mono h
  · exact absurd (ha.trans h) hb
  · have h1 : 0 ≤ ⌊-a⌋ := Int.floor_nonneg.mpr (by linarith)
    have h2 : 0 ≤ ⌊b⌋ := Int.floor_nonneg.mpr hb
    omega
  · have := Int.floor_mono (show -b ≤ -a by linarith)
    omega

/-- `rnd` of a number that is not zero, in a format that rounds (R66). -/
theorem rnd_of_ne {fmt : FiltFmt} {p emin : Int} {q : Rat} (hf : fmtParams fmt = some (p, emin)) (hq : q ≠ 0) :
    rnd fmt q = ulp p emin q * (nearestEven (q / ulp p emin q) : Rat) := by
  simp [rnd, hf, hq]

@[simp] theorem rnd_exact (q : Rat) : rnd .exact q = q := rfl

@[simp] theorem rnd_zero (fmt : FiltFmt) : rnd fmt 0 = 0 := by cases fmt <;> simp [rnd, fmtParams]

/-- The spacing is positive. -/
theorem ulp_pos (p emin : Int) (q : Rat) : 0 < ulp p emin q := by
  unfold ulp; rw [pow2_eq]; positivity

/-- A format has a precision and a least exponent, or does not round. -/
theorem fmt_cases (fmt : FiltFmt) :
    fmt = .exact ∨ ∃ p emin, fmtParams fmt = some (p, emin) ∧ 24 ≤ p ∧ emin ≤ -126 := by
  cases fmt
  · exact .inr ⟨24, -126, rfl, by norm_num, by norm_num⟩
  · exact .inr ⟨53, -1022, rfl, by norm_num, by norm_num⟩
  · exact .inl rfl

/-- `NR` is non-decreasing, for every `NORM_ROUND` (R95). -/
theorem nrRound_mono (m : NormRound) {a b : Rat} (h : a ≤ b) : nrRound m a ≤ nrRound m b := by
  cases m
  · exact Int.floor_mono h
  · exact truncInt_mono h
  · exact nearestAway_mono h

/-- `NR` fixes the integers (R95). -/
@[simp] theorem nrRound_intCast (m : NormRound) (n : Int) : nrRound m (n : Rat) = n := by
  cases m
  · exact Int.floor_intCast (R := Rat) n
  · exact truncInt_intCast n
  · exact nearestAway_intCast n

end Sys2Proof.Machine
end

