-- ==== Sys2Proof/Laws/Convergence.lean ====
section
/-! SUPPORT. `P_CONV` in exact arithmetic (R75 (a)): the distance to the constant decays geometrically, and a value within
one half of an integer rounds to it. It shows that the hypothesis named `P_CONV` can be met. -/

namespace Sys2Proof.Machine

@[simp] theorem filterIterate_zero (fmt : FiltFmt) (w : Nat) (v : Int) (a : Rat) : filterIterate fmt w v 0 a = a := rfl

@[simp] theorem filterIterate_succ (fmt : FiltFmt) (w : Nat) (v : Int) (n : Nat) (a : Rat) :
    filterIterate fmt w v (n + 1) a = filterIterate fmt w v n (filterNext fmt w a v) := rfl

/-- A value less than one half away from an integer rounds to it, under either tie rule (R68). -/
theorem roundInt_of_near (tie : RoundTie) {q : Rat} {v : Int} (h : |q - (v : Rat)| < 1 / 2) : roundInt tie q = v := by
  rw [abs_sub_comm] at h
  cases tie with
  | away =>
    have hd : |((nearestAway q - v : Int) : Rat)| < 1 := by
      push_cast
      calc |(nearestAway q : Rat) - v| = |((nearestAway q : Rat) - q) - ((v : Rat) - q)| := by ring_nf
        _ ≤ |(nearestAway q : Rat) - q| + |(v : Rat) - q| := abs_sub _ _
        _ < 1 := by linarith [nearestAway_spec q]
    have : |nearestAway q - v| < 1 := by exact_mod_cast hd
    exact sub_eq_zero.mp (Int.abs_lt_one_iff.mp this)
  | even => exact nearestEven_unique h.le fun e => absurd e h.ne

/-- One exact step shrinks the distance to the sample by `w/(w+1)` (R76). -/
theorem filterNext_exact_sub (w : Nat) (a : Rat) (v : Int) :
    filterNext .exact w a v - v = (w : Rat) / ((w : Rat) + 1) * (a - v) := by
  have : (w : Rat) + 1 ≠ 0 := by positivity
  simp only [filterNext, fdiv, fadd, fmul, fofint, rnd_exact]
  push_cast
  field_simp
  ring

/-- `n` exact steps shrink it by the n-th power (R75 (a)). -/
theorem filterIterate_exact_sub (w : Nat) (v : Int) (n : Nat) (a : Rat) :
    filterIterate .exact w v n a - v = ((w : Rat) / ((w : Rat) + 1)) ^ n * (a - v) := by
  induction n generalizing a with
  | zero => simp
  | succ n ih => rw [filterIterate_succ, ih, filterNext_exact_sub, pow_succ, mul_assoc]

/-- In exact arithmetic every filter converges to every constant, from every start value and under either tie rule
(R75 (a)). -/
theorem convergesTo_exact (tie : RoundTie) (w : Nat) (a : Rat) (v : Int) : convergesTo .exact tie w a v := by
  have hr : (0 : Rat) ≤ (w : Rat) / ((w : Rat) + 1) := by positivity
  have hr1 : (w : Rat) / ((w : Rat) + 1) < 1 := by rw [div_lt_one (by positivity)]; linarith
  have hd : (0 : Rat) < |a - v| + 1 := by positivity
  obtain ⟨n₀, hn₀⟩ := exists_pow_lt_of_lt_one (show (0 : Rat) < 1 / 2 / (|a - v| + 1) by positivity) hr1
  refine ⟨n₀, fun n hn => roundInt_of_near tie ?_⟩
  rw [filterIterate_exact_sub, abs_mul, abs_of_nonneg (pow_nonneg hr n)]
  calc ((w : Rat) / ((w : Rat) + 1)) ^ n * |a - v|
      ≤ ((w : Rat) / ((w : Rat) + 1)) ^ n₀ * (|a - v| + 1) := by
        gcongr ?_ * ?_
        · exact pow_le_pow_of_le_one hr hr1.le hn
        · linarith
    _ < 1 / 2 := (lt_div_iff₀ hd).mp hn₀

/-- `P_CONV` holds of a configuration in exact arithmetic (U6). -/
theorem P_CONV_of_exact {k : Config} (h : k.filtFmt = .exact) : P_CONV k := by
  intro f a v _ _ _ _
  rw [h]
  exact convergesTo_exact _ _ _ _

end Sys2Proof.Machine
end

