-- ==== Sys2Proof/Laws/Interpolation.lean ====
section
/-! SUPPORT. The exact quotient of the interpolator on each of its two halves (R94). -/

namespace Sys2Proof.Machine

/-- The upper half: the clamped distance from the center, over the upper span. -/
theorem quot_of_ge {raw L C H : Nat} (h : C ≤ raw) :
    quot raw L C H = ((min raw H : Nat) - C : Rat) * 100 / ((H : Rat) - C) := by
  simp [quot, h, nvScale]

/-- The lower half: the clamped distance from the center, over the lower span. -/
theorem quot_of_lt {raw L C H : Nat} (h : raw < C) :
    quot raw L C H = ((max raw L : Nat) - C : Rat) * 100 / ((C : Rat) - L) := by
  simp [quot, not_le.mpr h, nvScale]

/-- A normalization on ordered endpoints, on a channel's own registers. -/
theorem Channel.ordered_iff (ch : Channel) :
    ch.ordered = true ↔ ch.epLow.toNat < ch.epCenter.toNat ∧ ch.epCenter.toNat < ch.epHigh.toNat := by
  simp [Channel.ordered]

/-- The endpoint written reads back, the other two are as before. -/
theorem Channel.endpoint_setEndpoint (ch : Channel) (j k : Endpoint) (v : Half) :
    (ch.setEndpoint k v).endpoint j = if j = k then v else ch.endpoint j := by
  cases j <;> cases k <;> simp [Channel.endpoint, Channel.setEndpoint]

/-- Writing an endpoint leaves the channel's other registers. -/
theorem Channel.setEndpoint_frame (ch : Channel) (k : Endpoint) (v : Half) :
    (ch.setEndpoint k v).riseTs = ch.riseTs ∧ (ch.setEndpoint k v).raw = ch.raw ∧
      (ch.setEndpoint k v).staged = ch.staged ∧ (ch.setEndpoint k v).nval = ch.nval := by
  cases k <;> simp [Channel.setEndpoint]

/-- `valid(u)` with its bounds written out (R103). -/
theorem validEndpoint_iff (u : Half) : validEndpoint u = true ↔ 500 ≤ u.toNat ∧ u.toNat ≤ 2500 := by
  unfold validEndpoint
  rw [Bool.and_eq_true, decide_eq_true_iff, decide_eq_true_iff]
  rfl

/-- All that LDEP can store: a valid operand, or the endpoint's default (R100). -/
theorem loadedEndpoint_cases (k : Endpoint) (u : Half) :
    (500 ≤ u.toNat ∧ u.toNat ≤ 2500 ∧ loadedEndpoint k u = u) ∨
    (¬(500 ≤ u.toNat ∧ u.toNat ≤ 2500) ∧ loadedEndpoint k u = epDefault k) := by
  unfold loadedEndpoint
  by_cases h : validEndpoint u = true
  · have hv := (validEndpoint_iff u).mp h
    exact .inl ⟨hv.1, hv.2, if_pos h⟩
  · exact .inr ⟨fun hv => h ((validEndpoint_iff u).mpr hv), if_neg h⟩

end Sys2Proof.Machine
end

