-- ==== Sys2Proof/Laws/PerInstr.lean ====
section
/-! SUPPORT. Facts about every instruction as syntax, one lemma per constructor. -/

namespace Sys2Proof.Laws.EncodeRow

open Sys2Proof

/-- The opcode of a command; a pin event has none. -/
def opcodeOf : Instr → Option Opcode
  | .fstep _ _ => some .fstep
  | .fpeek _ => some .fpeek
  | .frst _ _ => some .frst
  | .poll => some .poll
  | .rdst _ => some .rdst
  | .norm _ => some .norm
  | .rdnv _ => some .rdnv
  | .ldep _ _ _ => some .ldep
  | .wrep _ _ _ => some .wrep
  | .rdep _ _ => some .rdep
  | .rdtime => some .rdtime
  | .edgeRise _ => none
  | .edgeFall _ => none

/-- An instruction that is encoded as a command word has its opcode's value in the opcode field and none of its format's
must-be-zero bits (R53, R54). -/
def Statement (i : Instr) : Prop :=
  ∀ w, encode i = .command w →
    ∃ o, opcodeOf i = some o ∧ opField w = o.bits ∧ w &&& o.format.zeroMask = 0#32

theorem fstep (f : Index) (x : Half) : Statement (.fstep f x) := by
  rintro w ⟨⟩
  exact ⟨.fstep, rfl, opField_mkWord _ _ _ _, (zeroMask_x _).2 ⟨mbzField_mkWord _ _ _ _, selField_mkWord _ _ _ _⟩⟩

theorem fpeek (f : Index) : Statement (.fpeek f) := by
  rintro w ⟨⟩
  exact ⟨.fpeek, rfl, opField_mkWord _ _ _ _,
    (zeroMask_i _).2 ⟨mbzField_mkWord _ _ _ _, selField_mkWord _ _ _ _, immField_mkWord _ _ _ _⟩⟩

theorem frst (f : Index) (x : Half) : Statement (.frst f x) := by
  rintro w ⟨⟩
  exact ⟨.frst, rfl, opField_mkWord _ _ _ _, (zeroMask_x _).2 ⟨mbzField_mkWord _ _ _ _, selField_mkWord _ _ _ _⟩⟩

theorem poll : Statement .poll := by
  rintro w ⟨⟩
  exact ⟨.poll, rfl, opField_mkWord _ _ _ _, by decide⟩

theorem rdst (c : Index) : Statement (.rdst c) := by
  rintro w ⟨⟩
  exact ⟨.rdst, rfl, opField_mkWord _ _ _ _,
    (zeroMask_i _).2 ⟨mbzField_mkWord _ _ _ _, selField_mkWord _ _ _ _, immField_mkWord _ _ _ _⟩⟩

theorem norm (c : Index) : Statement (.norm c) := by
  rintro w ⟨⟩
  exact ⟨.norm, rfl, opField_mkWord _ _ _ _,
    (zeroMask_i _).2 ⟨mbzField_mkWord _ _ _ _, selField_mkWord _ _ _ _, immField_mkWord _ _ _ _⟩⟩

theorem rdnv (c : Index) : Statement (.rdnv c) := by
  rintro w ⟨⟩
  exact ⟨.rdnv, rfl, opField_mkWord _ _ _ _,
    (zeroMask_i _).2 ⟨mbzField_mkWord _ _ _ _, selField_mkWord _ _ _ _, immField_mkWord _ _ _ _⟩⟩

theorem ldep (c : Index) (k : Endpoint) (u : Half) : Statement (.ldep c k u) := by
  rintro w ⟨⟩
  exact ⟨.ldep, rfl, opField_mkWord _ _ _ _, (zeroMask_e _).2 (mbzField_mkWord _ _ _ _)⟩

theorem wrep (c : Index) (k : Endpoint) (u : Half) : Statement (.wrep c k u) := by
  rintro w ⟨⟩
  exact ⟨.wrep, rfl, opField_mkWord _ _ _ _, (zeroMask_e _).2 (mbzField_mkWord _ _ _ _)⟩

theorem rdep (c : Index) (k : Endpoint) : Statement (.rdep c k) := by
  rintro w ⟨⟩
  exact ⟨.rdep, rfl, opField_mkWord _ _ _ _, (zeroMask_s _).2 ⟨mbzField_mkWord _ _ _ _, immField_mkWord _ _ _ _⟩⟩

theorem rdtime : Statement .rdtime := by
  rintro w ⟨⟩
  exact ⟨.rdtime, rfl, opField_mkWord _ _ _ _, by decide⟩

theorem edgeRise (c : Index) : Statement (.edgeRise c) := by
  rintro w ⟨⟩

theorem edgeFall (c : Index) : Statement (.edgeFall c) := by
  rintro w ⟨⟩

end Sys2Proof.Laws.EncodeRow
end

