-- ==== Sys2Proof/Tests/Slice0.lean ====
section
/-! SUPPORT. Tests of the model against the words and vectors of 95_test_vectors.md (the reference test configuration,
R10), the smoke tests of the well-formedness checks, and for every statement with hypotheses a state that meets them. -/

namespace Sys2Proof.Tests

open Sys2Proof Sys2Proof.Machine

/-- The reference test configuration after reset. -/
def rtc : State := State.resetFor Config.rtc

/-- A test of the next state, false of a fault or a refusal. -/
def onNext (o : Host.Outcome State Fault Refusal) (p : State → Bool) : Bool :=
  match o with
  | .next t => p t
  | .fault _ => false
  | .refused _ => false

/-- The last response is `(err, data)`. -/
def lastIs (t : State) (err : Bool) (data : Word) : Bool := t.responses.getLast? == some ⟨err, data⟩

/-- A host command word as an input. -/
def cmd (w : Word) : Input := .event (.command w)

/-- The reference state with the given registers on channel 0. -/
def onCh0 (ch : Channel) : State := rtc.setChannel 0#4 ch

/-- The channel of the reference state after reset. -/
def ch0 : Channel := Channel.atReset 1500#32

/-- The reference state with something to be presented. -/
def offering (xs : List Input) : State := { rtc with inputs := xs }

/-! ### Well-formedness: each check refuses an ill-formed term -/

theorem test_wf_refuses_filter_index : Instr.wf Config.rtc (.fpeek 4#4) = false ∧ Instr.wf Config.rtc (.fpeek 3#4) = true := by
  decide

theorem test_wf_refuses_channel_index : Instr.wf Config.rtc (.norm 2#4) = false ∧ Instr.wf Config.rtc (.norm 1#4) = true := by
  decide

theorem test_config_wf_refuses_no_channel : Config.wf { Config.rtc with chPresent := [] } = false := by decide

theorem test_config_wf_refuses_17_channels : Config.wf { Config.rtc with chPresent := List.replicate 17 true } = false := by
  decide

theorem test_config_wf_refuses_no_filter : Config.wf { Config.rtc with smooth := [] } = false := by decide

theorem test_config_wf_refuses_17_filters : Config.wf { Config.rtc with smooth := List.replicate 17 0 } = false := by
  decide

/-! ### Decoding: the words of 95_test_vectors.md sections 2.1 and 2.2 -/

theorem test_decode_filter :
    decode 0x10100064#32 = .ok (.fstep 1#4 100#16) ∧ decode 0x10008000#32 = .ok (.fstep 0#4 0x8000#16) ∧
    decode 0x11300000#32 = .ok (.fpeek 3#4) ∧ decode 0x121000FF#32 = .ok (.frst 1#4 255#16) := by decide

theorem test_decode_capture :
    decode 0x20000000#32 = .ok .poll ∧ decode 0x21100000#32 = .ok (.rdst 1#4) := by decide

theorem test_decode_mapper :
    decode 0x30100000#32 = .ok (.norm 1#4) ∧ decode 0x31000000#32 = .ok (.rdnv 0#4) ∧
    decode 0x321809C4#32 = .ok (.ldep 1#4 .high 2500#16) ∧ decode 0x32000064#32 = .ok (.ldep 0#4 .low 100#16) ∧
    decode 0x330405D8#32 = .ok (.wrep 0#4 .center 1496#16) ∧ decode 0x34180000#32 = .ok (.rdep 1#4 .high) := by decide

theorem test_decode_system : decode 0x40000000#32 = .ok .rdtime := by decide

theorem test_decode_pins :
    decodePin 1#4 false true = some (.edgeRise 1#4) ∧ decodePin 1#4 true false = some (.edgeFall 1#4) ∧
    decodePin 1#4 true true = none ∧ decodePin 1#4 false false = none := by decide

theorem test_encode_words :
    encode (.fstep 2#4 0xFF9C#16) = .command 0x1020FF9C#32 ∧ encode (.ldep 0#4 .center 1500#16) = .command 0x320405DC#32 ∧
    encode (.wrep 1#4 .high 2600#16) = .command 0x33180A28#32 ∧ encode (.rdep 0#4 .center) = .command 0x34040000#32 := by
  decide

theorem test_refusal_reasons :
    refusal Config.rtc 0x00000000#32 = some .opcode ∧ refusal Config.rtc 0x13000000#32 = some .opcode ∧
    refusal Config.rtc 0x20000001#32 = some .mbz ∧ refusal Config.rtc 0x10180064#32 = some .mbz ∧
    refusal Config.rtc 0x34000001#32 = some .mbz ∧ refusal Config.rtc 0x32010000#32 = some .mbz ∧
    refusal Config.rtc 0x30200000#32 = some .index ∧ refusal Config.rtc 0x12400000#32 = some .index ∧
    refusal Config.rtc 0x340C0000#32 = some .selector ∧ refusal Config.rtc 0x320C03E8#32 = some .selector := by decide

/-- "With `NCH = 3` the word `0x30200000` is accepted as `NORM c2`" (95_test_vectors.md section 2.2). -/
theorem test_refusal_depends_on_nch :
    refusal { Config.rtc with chPresent := [true, true, true] } 0x30200000#32 = none := by decide

theorem test_table_word_command : decodeTableWord 32 0x320405DC = some (.ldep 0#4 .center 1500#16) := by decide

theorem test_table_word_pins :
    decodeTableWord 8 1 = some (.edgeRise 0#4) ∧ decodeTableWord 8 2 = some (.edgeFall 0#4) ∧ decodeTableWord 8 3 = none := by
  decide

/-- No two rows of the opcode map accept one word: their masks share bits on which their patterns differ (R54). -/
theorem test_opcode_rows_disjoint :
    opcodeMap.Pairwise (fun a b => a.matchWord &&& (a.mask &&& b.mask) ≠ b.matchWord &&& (a.mask &&& b.mask)) := by
  decide

/-- R53: every row's mask is `0xFF000000 OR zero_mask`, its match has the opcode in bits 31:24, and the decoder's own
opcode values and formats are the map's. -/
theorem test_opcode_map_columns :
    ∀ r ∈ opcodeMap, r.mask = 0xFF000000#32 ||| r.format.zeroMask ∧ r.matchWord = mkWord r.op 0#4 0#2 0#16 ∧
      r.opcode.bits = r.op ∧ r.opcode.format = r.format := by
  decide

/-! ### One step of each instruction -/

/-- 95_test_vectors.md section 3.1: from 75, `FSTEP f1, 100` gives 87.5 and responds 88. -/
theorem test_fstep_rounds_tie_away :
    onNext (exec (.fstep 1#4 100#16) (rtc.setAvg 1#4 75)) (fun t => t.avgAt 1#4 == 175 / 2 && lastIs t false 0x58#32) = true := by
  decide +kernel

/-- 95_test_vectors.md section 3.2: weight 2, first value 8738133/262144 under BINARY32. -/
theorem test_fstep_rounds_to_binary32 :
    onNext (exec (.fstep 0#4 100#16) (State.resetFor { Config.rtc with smooth := [2] }))
      (fun t => t.avgAt 0#4 == 8738133 / 262144 && lastIs t false 33#32) = true := by
  decide +kernel

/-- A value of `AVG[f]` that no further step changes and whose `round_int` is not the constant: weight 252, constant
16580. Evaluated outside the model, in the single precision of a C compiler. -/
theorem test_filter_stalls_in_binary32 :
    filterNext .binary32 252 (4244329 / 256) 16580 = 4244329 / 256 ∧ roundInt .away (4244329 / 256) = 16579 := by
  decide +kernel

/-- 95_test_vectors.md section 3.4: `AVG[f1] = -0.6875` peeks as -1. -/
theorem test_fpeek_negative :
    onNext (exec (.fpeek 1#4) (rtc.setAvg 1#4 (-11 / 16))) (fun t => lastIs t false 0xFFFFFFFF#32) = true := by
  decide +kernel

/-- 95_test_vectors.md section 3.4: `FRST f3, -32768`. -/
theorem test_frst_extreme :
    onNext (exec (.frst 3#4 0x8000#16) rtc) (fun t => t.avgAt 3#4 == -32768 && lastIs t false 0#32) = true := by
  decide +kernel

/-- R83's example: `RAW = [1500, 1234]`. -/
theorem test_poll_copies_all :
    onNext (exec .poll ((rtc.setChannel 0#4 { ch0 with staged := 0#32 }).setChannel 1#4 { ch0 with raw := 1234#32, staged := 0#32 }))
      (fun t => (t.channel 0#4).staged == 1500#32 && (t.channel 1#4).staged == 1234#32 && lastIs t false 0#32) = true := by
  decide

theorem test_rdst_full_width :
    onNext (exec (.rdst 0#4) (onCh0 { ch0 with staged := 4294967000#32 })) (fun t => lastIs t false 0xFFFFFED8#32) = true := by
  decide

theorem test_rdst_refuses_absent_index : onNext (exec (.rdst 2#4) rtc) (fun t => lastIs t true 0#32) = true := by decide

/-- 95_test_vectors.md section 4.2: raw 1247 gives -51 under FLOOR. -/
theorem test_norm_floor_negative :
    onNext (exec (.norm 0#4) (onCh0 { ch0 with staged := 1247#32 }))
      (fun t => (t.channel 0#4).nval == 0xCD#8 && lastIs t false 0xFFFFFFCD#32) = true := by
  decide +kernel

/-- 95_test_vectors.md section 4.2: raw 67036 saturates, the full 32 bits are compared. -/
theorem test_norm_saturates :
    onNext (exec (.norm 0#4) (onCh0 { ch0 with staged := 67036#32 })) (fun t => lastIs t false 0x64#32) = true := by
  decide +kernel

theorem test_rdnv_sign_extends :
    onNext (exec (.rdnv 0#4) (onCh0 { ch0 with nval := 0xCE#8 })) (fun t => lastIs t false 0xFFFFFFCE#32) = true := by
  decide

/-- 95_test_vectors.md section 4.3: 2501 is replaced, 2500 is stored. -/
theorem test_ldep_bounds :
    onNext (exec (.ldep 1#4 .high 2501#16) rtc) (fun t => (t.channel 1#4).epHigh == 2000#16 && lastIs t false 2000#32) = true ∧
    onNext (exec (.ldep 1#4 .high 2500#16) rtc) (fun t => (t.channel 1#4).epHigh == 2500#16) = true := by
  decide

/-- 95_test_vectors.md section 4.3: 499 is replaced, 500 is stored. -/
theorem test_ldep_low_bounds :
    onNext (exec (.ldep 1#4 .low 499#16) rtc) (fun t => (t.channel 1#4).epLow == 1000#16) = true ∧
    onNext (exec (.ldep 1#4 .low 500#16) rtc) (fun t => (t.channel 1#4).epLow == 500#16) = true := by
  decide

theorem test_wrep_unvalidated :
    onNext (exec (.wrep 1#4 .high 2600#16) rtc) (fun t => (t.channel 1#4).epHigh == 2600#16 && lastIs t false 0xA28#32) = true := by
  decide

theorem test_rdep_center : onNext (exec (.rdep 0#4 .center) rtc) (fun t => lastIs t false 0x5DC#32) = true := by decide

theorem test_rdtime : onNext (exec .rdtime { rtc with time := 1204#32 }) (fun t => lastIs t false 0x4B4#32) = true := by decide

theorem test_edge_rise :
    onNext (exec (.edgeRise 0#4) { rtc with time := 20000#32 }) (fun t => (t.channel 0#4).riseTs == 20000#32) = true := by
  decide

theorem test_edge_rise_absent : exec (.edgeRise 1#4) { rtc with time := 20000#32 } = .next { rtc with time := 20000#32 } := rfl

/-- 95_test_vectors.md section 4.1: the counter wrapped between the edges. -/
theorem test_edge_fall_wraps :
    onNext (exec (.edgeFall 0#4) { onCh0 { ch0 with riseTs := 4294967100#32 } with time := 1304#32 })
      (fun t => (t.channel 0#4).raw == 1500#32 && (t.channel 0#4).staged == 1500#32) = true := by
  decide

/-- 95_test_vectors.md section 4.1: `TIME = 4294967000`, `ADVANCE 1500` gives 1204. -/
theorem test_advance_wraps :
    onNext (step { offering [.event (.advance 1500)] with time := 4294967000#32 }) (fun t => t.time == 1204#32) = true := by
  decide

/-- A refused word answers `(1, 0)` and leaves the registers (95_test_vectors.md section 2.2). -/
theorem test_step_refuses :
    onNext (step (offering [cmd 0x10110064#32])) (fun t => lastIs t true 0#32 && t.channels == rtc.channels) = true := by
  decide

/-- A word presented at reset of the block as built runs as the first instruction, whatever its OPEN parameters. -/
theorem test_first_word_after_reset :
    step (State.reset.withFetchWord 32 0x40000000) = exec .rdtime State.reset := rfl

/-- R95's table: `NR` at -0.2, -50.6, 50.6, 99.8 and -99.5. -/
theorem test_normRound_table :
    ([-1 / 5, -253 / 5, 253 / 5, 499 / 5, -199 / 2] : List Rat).map (nrRound .floor) = [-1, -51, 50, 99, -100] ∧
    ([-1 / 5, -253 / 5, 253 / 5, 499 / 5, -199 / 2] : List Rat).map (nrRound .trunc) = [0, -50, 50, 99, -99] ∧
    ([-1 / 5, -253 / 5, 253 / 5, 499 / 5, -199 / 2] : List Rat).map (nrRound .nearest) = [0, -51, 51, 100, -100] := by
  decide +kernel

/-! ### States that meet the hypotheses of the statements -/

theorem rtc_banksOk : rtc.banksOk := by decide

theorem rtc_typeInv : rtc.typeInv := by
  refine ⟨rtc_banksOk, fun a ha => ?_⟩
  have : a = 0 := List.eq_of_mem_replicate ha
  subst this
  exact ⟨⟨0, rnd_zero _⟩, by norm_num, by norm_num⟩

/-- A filter of weight 1 that stands at 75. -/
def filterAt75 : State := rtc.setAvg 1#4 75

/-- The reference configuration in exact arithmetic. -/
def rtcExact : State := State.resetFor { Config.rtc with filtFmt := .exact }

/-- Channel 0 with the endpoints out of order. -/
def unordered : State := onCh0 { ch0 with epCenter := 900#16 }

theorem witness_AcceptedWordIsItsEncoding : decode 0x321809C4#32 = .ok (.ldep 1#4 .high 2500#16) := by decide

theorem witness_StepFollowsDecodingProcedure :
    (offering [cmd 0x30100000#32]).inputs = .event (.command 0x30100000#32) :: [] ∧ refusal Config.rtc 0x30100000#32 = none ∧
    refusal Config.rtc 0x30200000#32 = some .index := by decide

theorem witness_StepRunsDecodedCommand :
    (offering [cmd 0x11300000#32]).inputs = .event (.command 0x11300000#32) :: [] ∧
    decode 0x11300000#32 = .ok (.fpeek 3#4) ∧ Instr.wf (offering [cmd 0x11300000#32]).cfg (.fpeek 3#4) = true := by decide

theorem witness_StepRunsPinEvent :
    (offering [.event (.pin 0#4 false true)]).inputs = .event (.pin 0#4 false true) :: [] ∧
    (offering [.event (.pin 0#4 true false)]).inputs = .event (.pin 0#4 true false) :: [] ∧
    (offering [.event (.pin 0#4 true true)]).inputs = .event (.pin 0#4 true true) :: [] := ⟨rfl, rfl, rfl⟩

theorem witness_PresentedTableWordRunsNext :
    decodeTableWord 32 0x30F00000 = some (.norm 15#4) ∧ decodeTableWord 8 2 = some (.edgeFall 0#4) := by decide

theorem witness_RefusedWordChangesNothing :
    (offering [cmd 0x340C0000#32]).inputs = .event (.command 0x340C0000#32) :: [] ∧
    refusal (offering [cmd 0x340C0000#32]).cfg 0x340C0000#32 = some .selector ∧
    Config.nch { Config.rtc with chPresent := [false, false] } = Config.rtc.nch := by decide

theorem witness_ErrBitIndependentOfState :
    (offering [cmd 0x30000000#32]).cfg.nch = { unordered with inputs := [cmd 0x30000000#32] }.cfg.nch ∧
    (offering [cmd 0x30000000#32]).cfg.nfilt = { unordered with inputs := [cmd 0x30000000#32] }.cfg.nfilt ∧
    (offering [cmd 0x30000000#32]).inputs = .event (.command 0x30000000#32) :: [] ∧
    { unordered with inputs := [cmd 0x30000000#32] }.inputs = .event (.command 0x30000000#32) :: [] := ⟨rfl, rfl, rfl, rfl⟩

theorem witness_EveryStepCompletes :
    (offering [cmd 0#32]).inputs = .event (.command 0#32) :: [] ∧ rtc.inputs = [] := ⟨rfl, rfl⟩

theorem witness_StepKeepsTypeInvariant :
    State.typeInv (offering [cmd 0x10100064#32]) ∧ ∃ t, step (offering [cmd 0x10100064#32]) = .next t :=
  ⟨rtc_typeInv, _, rfl⟩

theorem witness_TypeInvariantAtReset : Config.rtc.wf = true := by decide

/-- For each register that a step can write, an input that changes it: `TIME`, `AVG`, `RISE_TS`, `RAW`. -/
theorem witness_RegistersHaveOnlyTheirWriters :
    onNext (step (offering [.event (.advance 1)])) (fun t => t.time != rtc.time) = true ∧
    onNext (step (offering [present (.frst 1#4 5#16)])) (fun t => t.avgAt 1#4 != rtc.avgAt 1#4) = true ∧
    onNext (step { offering [present (.edgeRise 0#4)] with time := 7#32 })
      (fun t => (t.channel 0#4).riseTs != (rtc.channel 0#4).riseTs) = true ∧
    onNext (step { offering [present (.edgeFall 0#4)] with time := 7#32 })
      (fun t => (t.channel 0#4).raw != (rtc.channel 0#4).raw) = true := by
  decide +kernel

/-- The same for `STAGED`, `NVAL` and an endpoint. -/
theorem witness_RegistersHaveOnlyTheirWriters_host :
    onNext (step { onCh0 { ch0 with raw := 7#32 } with inputs := [present .poll] })
      (fun t => (t.channel 0#4).staged != 1500#32) = true ∧
    onNext (step { onCh0 { ch0 with staged := 7#32 } with inputs := [present (.norm 0#4)] })
      (fun t => (t.channel 0#4).nval != 0#8) = true ∧
    onNext (step (offering [present (.wrep 0#4 .low 7#16)]))
      (fun t => (t.channel 0#4).endpoint .low != (rtc.channel 0#4).endpoint .low) = true := by
  decide +kernel

theorem witness_PollNormRdnvSeesPolledWidth :
    isEnv (.event (.advance 5)) = true ∧ isEnv (present (.edgeFall 0#4)) = true ∧ rtc.banksOk ∧
    (0#4).toNat < rtc.cfg.nch ∧ (rtc.channel 0#4).ordered = true ∧
    (offering [present .poll, present (.edgeFall 0#4), present (.norm 0#4), present (.rdnv 0#4)]).inputs =
      present .poll :: ([present (.edgeFall 0#4)] ++ present (.norm 0#4) :: ([] ++ present (.rdnv 0#4) :: [])) := by
  decide

theorem witness_ReadsHaveNoSideEffect :
    Instr.rdep 0#4 .low ∈ [Instr.rdst 0#4, .rdnv 0#4, .rdep 0#4 .low, .rdtime, .fpeek 0#4] := by decide

theorem witness_ResetRestoresEveryRegister :
    (offering [.reset [.command 0x20000000#32, .pin 0#4 false true]]).inputs =
      .reset [.command 0x20000000#32, .pin 0#4 false true] :: [] := rfl

theorem witness_ResetValues : (1#4).toNat < Config.rtc.nch := by decide

theorem witness_ResetEndpointsOrdered : (1#4).toNat < Config.rtc.nch := by decide

theorem witness_AdvanceIsModular :
    (offering [.event (.advance 0)]).inputs = .event (.advance 0) :: [] ∧
    (offering [.event (.advance (2 ^ 32))]).inputs = .event (.advance (2 ^ 32)) :: [] ∧
    (offering [.event (.advance 4294967295), .event (.advance 1501)]).inputs =
      .event (.advance 4294967295) :: .event (.advance 1501) :: [] := ⟨rfl, rfl, rfl⟩

theorem witness_EdgeRiseRecordsTime :
    rtc.banksOk ∧ rtc.cfg.present 0#4 = true ∧ (1#4).toNat < rtc.cfg.nch ∧ rtc.cfg.present 1#4 = false := by decide

theorem witness_EdgeFallStoresDifference :
    rtc.banksOk ∧ rtc.cfg.present 0#4 = true ∧ (1#4).toNat < rtc.cfg.nch ∧ rtc.cfg.present 1#4 = false := by decide

/-- The least and the greatest index that is no channel. -/
theorem witness_EdgeOfNoChannelHasNoEffect : rtc.cfg.nch ≤ (2#4).toNat ∧ rtc.cfg.nch ≤ (15#4).toNat := by decide

theorem witness_AbsentChannelNeverCaptures :
    rtc.absentInv ∧ ∃ t, step (offering [present (.edgeFall 1#4)]) = .next t :=
  ⟨by unfold State.absentInv; decide, _, rfl⟩

theorem witness_PollStagesEveryChannel :
    opField 0x20000000#32 = 0x20#8 ∧ opField 0x20000001#32 = 0x20#8 ∧ (∀ ch ∈ rtc.channels, ch.staged = ch.raw) ∧
    (offering [present .poll, present (.norm 0#4), present (.edgeRise 0#4), present .poll]).inputs =
      present .poll :: ([present (.norm 0#4), present (.edgeRise 0#4)] ++ present .poll :: []) ∧
    (∀ x ∈ [present (.norm 0#4), present (.edgeRise 0#4)], ∀ c, x ≠ present (.edgeFall c)) := by decide

theorem witness_RdstReadsStaged :
    opField 0x21F00000#32 = 0x21#8 ∧ (1#4).toNat < rtc.cfg.nch ∧ rtc.cfg.nch ≤ (2#4).toNat := by decide

theorem witness_CaptureMeasuresAcrossWrap :
    rtc.banksOk ∧ rtc.cfg.present 0#4 = true ∧
    (offering (pulse 0#4 1500)).inputs =
      present (.edgeRise 0#4) :: ([.event (.advance 1500)] ++ present (.edgeFall 0#4) :: []) ∧
    Input.event (.advance 1500) ≠ present (.edgeRise 0#4) ∧ isNotReset (.event (.advance 1500)) = true ∧
    counts [.event (.advance 1500)] < 2 ^ 32 := by decide

theorem witness_RepeatedEdges :
    rtc.banksOk ∧ rtc.cfg.present 0#4 = true ∧
    (offering [present (.edgeRise 0#4), .event (.advance 400), present (.edgeRise 0#4), .event (.advance 1100),
      present (.edgeFall 0#4)]).inputs =
      present (.edgeRise 0#4) :: .event (.advance 400) :: present (.edgeRise 0#4) :: .event (.advance 1100) ::
        present (.edgeFall 0#4) :: [] ∧
    (offering [present (.edgeRise 0#4), .event (.advance 400), present (.edgeFall 0#4), .event (.advance 1100),
      present (.edgeFall 0#4)]).inputs =
      present (.edgeRise 0#4) :: .event (.advance 400) :: present (.edgeFall 0#4) :: .event (.advance 1100) ::
        present (.edgeFall 0#4) :: [] := by decide

/-- A RISE of channel 0, then FALLs without end. -/
def riseThenFalls : Nat → Input
  | 0 => present (.edgeRise 0#4)
  | _ + 1 => present (.edgeFall 0#4)

/-- The states under it from the reference state: the first FALL stores a width of 0, every later one the same. -/
def riseThenFallsStates : Nat → State
  | 0 => rtc
  | 1 => rtc
  | _ + 2 => onCh0 { ch0 with raw := 0#32 }

/-- The states under FALLs without end and no RISE. -/
def fallsStates : Nat → State
  | 0 => rtc
  | _ + 1 => onCh0 { ch0 with raw := 0#32 }

/-- A FALL at time 0 that finds the width 0 leaves it. -/
theorem test_edge_fall_repeated :
    step { onCh0 { ch0 with raw := 0#32 } with inputs := [present (.edgeFall 0#4)] } =
      .next (onCh0 { ch0 with raw := 0#32 }) := rfl

/-- Two infinite executions that meet the hypotheses, at the FALL of position 1 after a RISE and of position 0 after none. -/
theorem witness_RepeatedEdges_infinite :
    isExecution riseThenFalls riseThenFallsStates ∧ isExecution (fun _ => present (.edgeFall 0#4)) fallsStates ∧
    (∀ n, isNotReset (riseThenFalls n) = true) ∧ isNotReset (present (.edgeFall 0#4)) = true ∧
    riseThenFalls 0 = present (.edgeRise 0#4) ∧ riseThenFalls 1 = present (.edgeFall 0#4) ∧
    rtc.banksOk ∧ rtc.cfg.present 0#4 = true := by
  refine ⟨fun n => ?_, fun n => ?_, fun n => by cases n <;> rfl, rfl, rfl, rfl, rtc_banksOk, rfl⟩
  · match n with
    | 0 => rfl
    | 1 => rfl
    | _ + 2 => exact test_edge_fall_repeated
  · match n with
    | 0 => rfl
    | _ + 1 => exact test_edge_fall_repeated

theorem witness_EdgesOfDifferentChannelsCommute : (0#4 : Index) ≠ 1#4 := by decide

theorem witness_PollRacingFallSeesOldOrNew :
    rtc.banksOk ∧ rtc.cfg.present 0#4 = true ∧
    (offering [present (.edgeFall 0#4), present .poll]).inputs = present (.edgeFall 0#4) :: present .poll :: [] ∧
    (offering [present .poll, present (.edgeFall 0#4)]).inputs = present .poll :: present (.edgeFall 0#4) :: [] := by decide

theorem witness_NormWritesNormalizedValue :
    opField 0x30000001#32 = 0x30#8 ∧ rtc.banksOk ∧ (1#4).toNat < rtc.cfg.nch ∧ (rtc.channel 1#4).ordered = true ∧
    unordered.banksOk ∧ (0#4).toNat < unordered.cfg.nch ∧ (unordered.channel 0#4).ordered = false ∧
    rtc.cfg.nch ≤ (2#4).toNat := by decide

theorem witness_NormReadsOnlyStagedAndEndpoints :
    rtc.banksOk ∧ (onCh0 { ch0 with raw := 7#32 }).banksOk ∧ (0#4).toNat < rtc.cfg.nch ∧
    rtc.cfg.nch = (onCh0 { ch0 with raw := 7#32 }).cfg.nch ∧
    rtc.cfg.normRound = (onCh0 { ch0 with raw := 7#32 }).cfg.normRound ∧
    (rtc.channel 0#4).ordered = true ∧ (rtc.channel 0#4).staged = ((onCh0 { ch0 with raw := 7#32 }).channel 0#4).staged ∧
    (rtc.channel 0#4).endpoint .low = ((onCh0 { ch0 with raw := 7#32 }).channel 0#4).endpoint .low ∧
    (rtc.channel 0#4).endpoint .center = ((onCh0 { ch0 with raw := 7#32 }).channel 0#4).endpoint .center ∧
    (rtc.channel 0#4).endpoint .high = ((onCh0 { ch0 with raw := 7#32 }).channel 0#4).endpoint .high := by decide

theorem witness_RdnvReadsStoredValue :
    opField 0x31000000#32 = 0x31#8 ∧ (1#4).toNat < rtc.cfg.nch ∧ rtc.cfg.nch ≤ (2#4).toNat := by decide

/-- Both sides of both bounds, and the encoding's two refusals. -/
theorem witness_LdepStoresOperandOrDefault :
    rtc.banksOk ∧ (1#4).toNat < rtc.cfg.nch ∧ rtc.cfg.nch ≤ (2#4).toNat ∧
    (500 ≤ (500#16).toNat ∧ (500#16).toNat ≤ 2500) ∧ (500 ≤ (2500#16).toNat ∧ (2500#16).toNat ≤ 2500) ∧
    ¬(500 ≤ (499#16).toNat ∧ (499#16).toNat ≤ 2500) ∧ ¬(500 ≤ (2501#16).toNat ∧ (2501#16).toNat ≤ 2500) ∧
    (opField 0x32010000#32 = 0x32#8 ∧ (0x32010000#32 &&& 0x00030000#32) ≠ 0#32) ∧
    (opField 0x320C03E8#32 = 0x32#8 ∧ selField 0x320C03E8#32 = 3#2) ∧
    (opField 0x320405DC#32 = 0x32#8 ∧ 0x320405DC#32 &&& 0x00030000#32 = 0#32 ∧
      selField 0x320405DC#32 = Endpoint.center.sel) := by decide

theorem witness_WrepStoresOperand :
    rtc.banksOk ∧ (1#4).toNat < rtc.cfg.nch ∧ rtc.cfg.nch ≤ (2#4).toNat ∧
    (opField 0x33010000#32 = 0x33#8 ∧ (0x33010000#32 &&& 0x00030000#32) ≠ 0#32) ∧
    (opField 0x330C03E8#32 = 0x33#8 ∧ selField 0x330C03E8#32 = 3#2) ∧
    (opField 0x33180A28#32 = 0x33#8 ∧ 0x33180A28#32 &&& 0x00030000#32 = 0#32 ∧
      selField 0x33180A28#32 = Endpoint.high.sel) := by decide

theorem witness_RdepReadsEndpoint :
    (1#4).toNat < rtc.cfg.nch ∧ rtc.cfg.nch ≤ (2#4).toNat ∧
    (opField 0x34000001#32 = 0x34#8 ∧ (0x34000001#32 &&& 0x0003FFFF#32) ≠ 0#32) ∧
    (opField 0x340C0000#32 = 0x34#8 ∧ selField 0x340C0000#32 = 3#2) ∧
    (opField 0x34080000#32 = 0x34#8 ∧ 0x34080000#32 &&& 0x0003FFFF#32 = 0#32 ∧
      selField 0x34080000#32 = Endpoint.high.sel) := by decide

theorem witness_RecordLoadsPerEndpoint :
    rtc.banksOk ∧ (0#4).toNat < rtc.cfg.nch ∧
    (offering (ldep3 0#4 100#16 900#16 2000#16)).inputs = ldep3 0#4 100#16 900#16 2000#16 ++ [] ∧
    (offering (wrep3 0#4 1012#16 1496#16 1988#16)).inputs = wrep3 0#4 1012#16 1496#16 1988#16 ++ [] := by decide

/-- The hypotheses of the six laws of `normalize`, at the narrowest spans and at both ends. -/
theorem witness_NormalizeLaws :
    (1499 < 1500 ∧ 1500 < 1501) ∧ (1499 ≤ 1499 ∧ 1501 ≤ 1501) ∧ (1498 ≤ 1499) ∧ ((1501 : Nat) < 2 ^ 16) ∧
    (1500 ≤ 1500 ∧ 1499 < 1500) := by decide

theorem witness_NormalizeStaysInRange : (1499 : Nat) < 1500 ∧ (1500 : Nat) < 1501 := by decide

theorem witness_NormalizeIsMonotone : (1499 : Nat) < 1500 ∧ (1500 : Nat) < 1501 ∧ (1499 : Nat) ≤ 1500 := by decide

theorem witness_NormalizeExactAtEndpoints : (0 : Nat) < 1 ∧ (1 : Nat) < 65535 := by decide

theorem witness_NormalizeSaturates :
    (1000 : Nat) < 1500 ∧ (1500 : Nat) < 2000 ∧ (1000 : Nat) ≤ 1000 ∧ (2000 : Nat) ≤ 2000 := by decide

theorem witness_FloorFormIsNormalize :
    (0 : Nat) < 1 ∧ (1 : Nat) < 65535 ∧ (65535 : Nat) < 2 ^ 16 ∧ (1 : Nat) ≤ 1 ∧ (0 : Nat) < 1 := by decide

/-- The four clauses at the spans 101, 200 and 201, and the span of 1 at the center and above it. -/
theorem witness_NormalizeJustBelowCenter :
    (1399 : Nat) < 1500 ∧ (1500 : Nat) < 1501 ∧ 100 < 1500 - 1399 ∧ 100 < 1500 - 1300 ∧ 1500 - 1300 ≤ 200 ∧
    200 < 1500 - 1299 ∧ 1501 = 1500 + 1 ∧ (1500 : Nat) ≤ 1501 := by decide

theorem witness_NormalizeResolution :
    (1000 : Nat) < 1500 ∧ (1500 : Nat) < 2000 ∧ (1500 : Nat) ≤ 1999 ∧ (1999 : Nat) < 2000 ∧ (2000 : Nat) ≤ 2000 ∧
    (1000 : Nat) ≤ 1499 := by decide

theorem witness_TickpollNormalizesEveryChannel :
    rtc.banksOk ∧ (∀ c : Index, c.toNat < rtc.cfg.nch → (rtc.channel c).ordered = true) ∧
    (offering (tickpoll Config.rtc)).inputs = tickpoll (offering (tickpoll Config.rtc)).cfg ++ [] := by decide

/-- A tie and two integers, on which the clauses of `NR` with hypotheses bear. -/
theorem witness_NormRoundFunctions :
    |(nrRound .nearest (-199 / 2) : Rat) - (-199 / 2)| = 1 / 2 ∧ (0 : Rat) ≤ 99 / 2 ∧ (-1 / 5 : Rat) ≤ 0 ∧
    (1499 : Nat) < 1500 ∧ (1500 : Nat) < 1501 := by decide +kernel

theorem witness_RndRoundsToNearestEven :
    fmtParams .binary32 = some (24, -126) ∧ (1 / 3 : Rat) ≠ 0 ∧ (1 / 3 : Rat) ≤ 1 / 2 ∧ isFNum .binary32 0 ∧
    |((16777216 : Int) : Rat)| ≤ (2 : Rat) ^ (24 : Int) :=
  ⟨rfl, by norm_num, by norm_num, ⟨0, rnd_zero _⟩, by norm_num⟩

theorem witness_RoundIntTies : roundInt .away (1 / 2) ≠ roundInt .even (1 / 2) := by decide +kernel

theorem witness_FstepAdvancesFilter :
    opField 0x10110064#32 = 0x10#8 ∧ rtc.banksOk ∧ (3#4).toNat < rtc.cfg.nfilt ∧ rtc.cfg.nfilt ≤ (4#4).toNat := by decide

theorem witness_FpeekReadsFilter :
    opField 0x11300001#32 = 0x11#8 ∧ (3#4).toNat < rtc.cfg.nfilt ∧ rtc.cfg.nfilt ≤ (4#4).toNat := by decide

theorem witness_FrstForcesFilter :
    opField 0x12110064#32 = 0x12#8 ∧ rtc.banksOk ∧ (3#4).toNat < rtc.cfg.nfilt ∧ rtc.cfg.nfilt ≤ (4#4).toNat := by decide

theorem witness_ZeroWeightPassesThrough :
    rtc.banksOk ∧ (0#4).toNat < rtc.cfg.nfilt ∧ rtc.cfg.weight 0#4 = 0 := by decide

theorem witness_FilterStaysInHull :
    filterAt75.banksOk ∧ (1#4).toNat < filterAt75.cfg.nfilt ∧ (-32768 : Int) ≤ 75 ∧ (100 : Int) ≤ 32767 ∧
    ((75 : Int) : Rat) ≤ filterAt75.avgAt 1#4 ∧ filterAt75.avgAt 1#4 ≤ ((100 : Int) : Rat) ∧
    (75 : Int) ≤ (100#16).toInt ∧ (100#16).toInt ≤ 100 := by decide +kernel

theorem witness_ConstantInputIsFixedPoint :
    filterAt75.banksOk ∧ (1#4).toNat < filterAt75.cfg.nfilt ∧ filterAt75.avgAt 1#4 = ((75#16).toInt : Rat) := by
  decide +kernel

theorem witness_ExactStepMovesByFraction :
    rtcExact.banksOk ∧ (2#4).toNat < rtcExact.cfg.nfilt ∧ rtcExact.cfg.filtFmt = .exact := by decide

/-- R75 (a) on weight 1 and the constant 100: eight steps bring the distance below one half (95_test_vectors.md 3.3). -/
theorem witness_ExactFilterConverges :
    rtcExact.banksOk ∧ (1#4).toNat < rtcExact.cfg.nfilt ∧ rtcExact.cfg.filtFmt = .exact ∧
    { rtcExact with inputs := List.replicate 8 (present (.fstep 1#4 100#16)) }.inputs =
      List.replicate 8 (present (.fstep 1#4 100#16)) ++ [] ∧
    ((rtcExact.cfg.weight 1#4 : Rat) / ((rtcExact.cfg.weight 1#4 : Rat) + 1)) ^ 8 *
      |rtcExact.avgAt 1#4 - ((100#16 : Half).toInt : Rat)| < 1 / 2 := by
  refine ⟨by decide, by decide, rfl, by simp, ?_⟩
  have h1 : rtcExact.cfg.weight 1#4 = 1 := by decide
  have h2 : rtcExact.avgAt 1#4 = 0 := by decide +kernel
  have h3 : (100#16 : Half).toInt = 100 := by decide
  rw [h1, h2, h3]
  norm_num

/-- The weight 252 is one that a filter can be built with. -/
theorem witness_Binary32FilterCanStall :
    Config.filtFmt { Config.rtc with smooth := [252] } = .binary32 ∧
    (0#4).toNat < Config.nfilt { Config.rtc with smooth := [252] } ∧
    Config.weight { Config.rtc with smooth := [252] } 0#4 = 252 := by decide

/-- `P_CONV` can be met: it holds in exact arithmetic. -/
theorem witness_FilterConvergesUnderPConv :
    rtcExact.typeInv ∧ (3#4).toNat < rtcExact.cfg.nfilt ∧ P_CONV rtcExact.cfg := by
  refine ⟨⟨by decide, fun a ha => ?_⟩, by decide, P_CONV_of_exact rfl⟩
  rw [List.eq_of_mem_replicate ha]
  exact ⟨⟨0, rnd_zero _⟩, by norm_num, by norm_num⟩

theorem witness_RdtimeReadsTime : opField 0x40000001#32 = 0x40#8 := by decide

theorem witness_RdtimeDifferenceIsDuration :
    (∀ x ∈ [.event (.advance 1500), present .poll], isNotReset x = true) ∧
    (offering [present .rdtime, .event (.advance 1500), present .poll, present .rdtime]).inputs =
      present .rdtime :: ([.event (.advance 1500), present .poll] ++ present .rdtime :: []) ∧
    counts [.event (.advance 1500), present .poll] < 2 ^ 32 := by decide

end Sys2Proof.Tests
end

/-! ## The state after reset (R29) -/

namespace Sys2Proof.Machine

/-- The reset value of a channel, with the endpoint defaults of R30 written out. -/
theorem Channel.atReset_eq (r : Word) :
    Channel.atReset r = ⟨0#32, r, r, 1000#16, 1500#16, 2000#16, 0#8⟩ := rfl

/-- Every channel reads at its reset value; an index that is no channel does so by the default of the read (log 12). -/
@[simp] theorem channel_resetFor (k : Config) (c : Index) :
    (State.resetFor k).channel c = Channel.atReset k.rawDefault := by
  rw [State.channel, resetFor_channels, resetFor_cfg, List.getD_eq_getElem?_getD,
    List.getElem?_getD_replicate_default_eq]

/-- Every filter reads as zero; an index that is no filter does so by the default of the read (log 12). -/
@[simp] theorem avgAt_resetFor (k : Config) (f : Index) : (State.resetFor k).avgAt f = 0 := by
  rw [State.avgAt, resetFor_avg, List.getD_eq_getElem?_getD, List.getElem?_getD_replicate_default_eq]

/-- Settles O18: the banks by their definitions, each single register by its read after reset. -/
theorem resetValues : Obligations.ResetValues := by
  unfold Obligations.ResetValues
  refine ⟨rfl, fun k => ⟨resetFor_cfg k, resetFor_time k, ?channels, resetFor_avg k, avgAt_resetFor k, ?channel⟩⟩
  case channels => rw [resetFor_channels, Channel.atReset_eq]
  case channel =>
    intro c _
    rw [channel_resetFor, Channel.atReset_eq]

end Sys2Proof.Machine

/-! ## Encoding and decoding (R50 to R57, R60) -/

namespace Sys2Proof

open Laws.EncodeRow (opcodeOf Statement)

/-! ### From an instruction to its word and back -/

/-- The rows of `Laws.EncodeRow` together: an encoded command has its opcode's value and its format's zero bits. -/
theorem encodeRow_statement : ∀ i : Instr, Statement i
  | .fstep f x => Laws.EncodeRow.fstep f x
  | .fpeek f => Laws.EncodeRow.fpeek f
  | .frst f x => Laws.EncodeRow.frst f x
  | .poll => Laws.EncodeRow.poll
  | .rdst c => Laws.EncodeRow.rdst c
  | .norm c => Laws.EncodeRow.norm c
  | .rdnv c => Laws.EncodeRow.rdnv c
  | .ldep c k u => Laws.EncodeRow.ldep c k u
  | .wrep c k u => Laws.EncodeRow.wrep c k u
  | .rdep c k => Laws.EncodeRow.rdep c k
  | .rdtime => Laws.EncodeRow.rdtime
  | .edgeRise c => Laws.EncodeRow.edgeRise c
  | .edgeFall c => Laws.EncodeRow.edgeFall c

/-- An endpoint's selector in an assembled word is read back as that endpoint (R52). -/
theorem withSelector_mkWord (op : BitVec 8) (c : Index) (k : Endpoint) (u : Half) (mk : Endpoint → Instr) :
    withSelector (mkWord op c k.sel u) mk = .ok (mk k) := by
  simp only [withSelector, selField_mkWord, Endpoint.ofSel_sel]

/-- The operands of an encoded command are read back from its word (R55). -/
theorem operands_of_encode {i : Instr} {w : Word} {o : Opcode} (he : encode i = .command w)
    (ho : opcodeOf i = some o) : o.operands w = .ok i := by
  cases i with
  | edgeRise c => cases ho
  | edgeFall c => cases ho
  | _ =>
    cases he
    cases ho
    simp only [Opcode.operands, withSelector_mkWord, idxField_mkWord, immField_mkWord]

/-- The converse of `decode_eq_ok`: the decoder answers what the operands of the word's opcode are. -/
theorem decode_of_operands {w : Word} {o : Opcode} {i : Instr} (ho : Opcode.ofBits (opField w) = some o)
    (hz : w &&& o.format.zeroMask = 0#32) (hop : o.operands w = .ok i) : decode w = .ok i := by
  simp only [decode, ho, hz, hop, ne_eq, not_true_eq_false, if_false]

/-- Decoding undoes the encoding of a command. -/
theorem decode_of_encode {i : Instr} {w : Word} (he : encode i = .command w) : decode w = .ok i := by
  obtain ⟨o, ho, hop, hz⟩ := encodeRow_statement i w he
  have hb : Opcode.ofBits (opField w) = some o := by rw [hop, Opcode.ofBits_bits]
  exact decode_of_operands hb hz (operands_of_encode he ho)

/-- What the block does with a command word that decodes. -/
theorem fetch_of_decode_ok {w : Word} {i : Instr} (h : decode w = .ok i) :
    Input.fetch (.event (.command w)) = .run i := by
  simp only [Input.fetch, h]

/-- What the block does with a command word that does not decode. -/
theorem fetch_of_decode_error {w : Word} {e : RefuseReason} (h : decode w = .error e) :
    Input.fetch (.event (.command w)) = .refuse e := by
  simp only [Input.fetch, h]

/-- A pin event's levels are those of the pin event (R60). -/
theorem fetch_of_encode_pin {i : Instr} {c : Index} {before after : Bool} (he : encode i = .pin c before after) :
    Input.fetch (.event (encode i)) = .run i := by
  cases i with
  | edgeRise c => rfl
  | edgeFall c => rfl
  | _ => cases he

/-- No instruction is encoded as an advance of the clock. -/
theorem encode_ne_advance (i : Instr) (d : Nat) : encode i ≠ .advance d := by
  cases i <;> exact Event.noConfusion

/-- Settles O1: a command by `decode_of_encode`, a pin event by its levels. -/
theorem encodedInstructionIsFetchedBack : Obligations.EncodedInstructionIsFetchedBack := by
  unfold Obligations.EncodedInstructionIsFetchedBack
  intro i
  cases he : encode i with
  | command w => exact fetch_of_decode_ok (decode_of_encode he)
  | pin c before after => exact he ▸ fetch_of_encode_pin he
  | advance d => exact absurd he (encode_ne_advance i d)

/-! ### From an accepted word to its encoding -/

/-- A word of format N is its opcode's value (R53). -/
theorem mkWord_of_format_n {w : Word} {op : BitVec 8} (hop : op = opField w)
    (h : w &&& Format.zeroMask .n = 0#32) : mkWord op 0#4 0#2 0#16 = w := by
  obtain ⟨hmbz, hidx, hsel, himm⟩ := (zeroMask_n w).1 h
  have hw := mkWord_fields w hmbz
  rwa [← hop, hidx, hsel, himm] at hw

/-- A word of format I is its opcode's value and its index (R53). -/
theorem mkWord_of_format_i {w : Word} {op : BitVec 8} (hop : op = opField w)
    (h : w &&& Format.zeroMask .i = 0#32) : mkWord op (idxField w) 0#2 0#16 = w := by
  obtain ⟨hmbz, hsel, himm⟩ := (zeroMask_i w).1 h
  have hw := mkWord_fields w hmbz
  rwa [← hop, hsel, himm] at hw

/-- A word of format X is its opcode's value, its index and its immediate (R53). -/
theorem mkWord_of_format_x {w : Word} {op : BitVec 8} (hop : op = opField w)
    (h : w &&& Format.zeroMask .x = 0#32) : mkWord op (idxField w) 0#2 (immField w) = w := by
  obtain ⟨hmbz, hsel⟩ := (zeroMask_x w).1 h
  have hw := mkWord_fields w hmbz
  rwa [← hop, hsel] at hw

/-- A word of format S is its opcode's value, its index and its selector (R53). -/
theorem mkWord_of_format_s {w : Word} {op : BitVec 8} {k : BitVec 2} (hop : op = opField w) (hk : k = selField w)
    (h : w &&& Format.zeroMask .s = 0#32) : mkWord op (idxField w) k 0#16 = w := by
  obtain ⟨hmbz, himm⟩ := (zeroMask_s w).1 h
  have hw := mkWord_fields w hmbz
  rwa [← hop, ← hk, himm] at hw

/-- A word of format E is its four operand fields (R53). -/
theorem mkWord_of_format_e {w : Word} {op : BitVec 8} {k : BitVec 2} (hop : op = opField w) (hk : k = selField w)
    (h : w &&& Format.zeroMask .e = 0#32) : mkWord op (idxField w) k (immField w) = w := by
  have hw := mkWord_fields w ((zeroMask_e w).1 h)
  rwa [← hop, ← hk] at hw

/-- Where a selector is read, the instruction is that of the endpoint whose selector stands in the word (R52). -/
theorem withSelector_eq_ok {w : Word} {mk : Endpoint → Instr} {i : Instr} (h : withSelector w mk = .ok i) :
    ∃ k, k.sel = selField w ∧ mk k = i := by
  unfold withSelector at h
  cases hk : Endpoint.ofSel (selField w) with
  | none => simp only [hk, reduceCtorEq] at h
  | some k =>
    simp only [hk, Except.ok.injEq] at h
    exact ⟨k, Endpoint.sel_of_ofSel hk, h⟩

/-- Encoding undoes the reading of the operands, on a word with its format's zero bits. -/
theorem encode_of_operands {w : Word} {o : Opcode} {i : Instr} (hb : o.bits = opField w)
    (hz : w &&& o.format.zeroMask = 0#32) (hop : o.operands w = .ok i) : encode i = .command w := by
  cases o with
  | poll | rdtime =>
    cases hop
    exact congrArg Event.command (mkWord_of_format_n hb hz)
  | fpeek | rdst | norm | rdnv =>
    cases hop
    exact congrArg Event.command (mkWord_of_format_i hb hz)
  | fstep | frst =>
    cases hop
    exact congrArg Event.command (mkWord_of_format_x hb hz)
  | rdep =>
    obtain ⟨k, hk, rfl⟩ := withSelector_eq_ok hop
    exact congrArg Event.command (mkWord_of_format_s hb hk hz)
  | ldep | wrep =>
    obtain ⟨k, hk, rfl⟩ := withSelector_eq_ok hop
    exact congrArg Event.command (mkWord_of_format_e hb hk hz)

/-- Settles O2: the word is its fields, and the fields its format does not use are zero. -/
theorem acceptedWordIsItsEncoding : Obligations.AcceptedWordIsItsEncoding := by
  unfold Obligations.AcceptedWordIsItsEncoding
  intro w i h
  obtain ⟨o, ho, hz, hop⟩ := decode_eq_ok h
  exact encode_of_operands (Opcode.bits_of_ofBits ho) hz hop

/-! ### The decoder and the rows of the opcode map -/

/-- The columns of every row are those of its opcode (R54). -/
theorem opcodeMap_columns :
    ∀ r ∈ opcodeMap, r.op = r.opcode.bits ∧ r.format = r.opcode.format := by decide

/-- The opcode that a value names is that of the row the value finds. -/
theorem ofBits_eq_find_row (b : BitVec 8) :
    Opcode.ofBits b = (opcodeMap.find? fun r => r.op == b).map OpRow.opcode := by
  have hall : Opcode.all = opcodeMap.map OpRow.opcode := rfl
  have hop : opcodeMap.find? (fun r => r.op == b) = opcodeMap.find? ((fun o => o.bits == b) ∘ OpRow.opcode) :=
    List.find?_congr fun r hr => by rw [(opcodeMap_columns r hr).1]; rfl
  rw [Opcode.ofBits, hall, List.find?_map, hop]

/-- A word that finds no row has a reserved opcode (R57). -/
theorem decode_of_no_row {w : Word} (h : (opcodeMap.find? fun r => r.op == opField w) = none) :
    decode w = .error .opcode := by
  have ho : Opcode.ofBits (opField w) = none := by rw [ofBits_eq_find_row, h]; rfl
  simp only [decode, ho]

/-- A word that finds a row is decoded by the row's format and opcode. -/
theorem decode_of_row {w : Word} {r : OpRow} (h : (opcodeMap.find? fun r => r.op == opField w) = some r) :
    decode w = if w &&& r.format.zeroMask ≠ 0#32 then .error .mbz else r.opcode.operands w := by
  have ho : Opcode.ofBits (opField w) = some r.opcode := by rw [ofBits_eq_find_row, h]; rfl
  simp only [decode, ho, (opcodeMap_columns r (List.mem_of_find?_eq_some h)).2]

/-- The rows without a selector, by the space that their index is checked against (R34, R54). -/
theorem opcodeMap_rows_without_selector : ∀ r ∈ opcodeMap, r.selector = false →
    (r.space = .none ∧ (r.opcode = .poll ∨ r.opcode = .rdtime)) ∨
    (r.space = .filter ∧ (r.opcode = .fstep ∨ r.opcode = .fpeek ∨ r.opcode = .frst)) ∨
    (r.space = .channel ∧ (r.opcode = .rdst ∨ r.opcode = .norm ∨ r.opcode = .rdnv)) := by decide

/-- The rows with a selector (R52, R54). -/
theorem opcodeMap_rows_with_selector : ∀ r ∈ opcodeMap, r.selector = true →
    r.space = .channel ∧ (r.opcode = .ldep ∨ r.opcode = .wrep ∨ r.opcode = .rdep) := by decide

/-- A row without a selector always has an instruction, checked against the row's index space (R34, R54). -/
theorem operands_of_row_without_selector {r : OpRow} (hr : r ∈ opcodeMap) (hs : r.selector = false) (w : Word) :
    ∃ i, r.opcode.operands w = .ok i ∧ ∀ k, i.wf k = r.space.admits k (idxField w) := by
  rcases opcodeMap_rows_without_selector r hr hs with
    ⟨hspace, ho | ho⟩ | ⟨hspace, ho | ho | ho⟩ | ⟨hspace, ho | ho | ho⟩ <;>
  · rw [hspace, ho]
    exact ⟨_, rfl, fun _ => rfl⟩

/-- A row with a selector reads the endpoint from the word and checks the index as a channel's (R34, R52). -/
theorem operands_of_row_with_selector {r : OpRow} (hr : r ∈ opcodeMap) (hs : r.selector = true) (w : Word) :
    ∃ mk, r.opcode.operands w = withSelector w mk ∧ ∀ e k, (mk e).wf k = r.space.admits k (idxField w) := by
  obtain ⟨hspace, hop⟩ := opcodeMap_rows_with_selector r hr hs
  rw [hspace]
  rcases hop with ho | ho | ho <;> rw [ho]
  · exact ⟨fun e => .ldep (idxField w) e (immField w), rfl, fun _ _ => rfl⟩
  · exact ⟨fun e => .wrep (idxField w) e (immField w), rfl, fun _ _ => rfl⟩
  · exact ⟨fun e => .rdep (idxField w) e, rfl, fun _ _ => rfl⟩

/-- All that reading a row's operands can do: an instruction checked against the row's index space, or an error on the
selector 3 of a row that has one (R34, R52, R57). -/
theorem operands_of_row {r : OpRow} (hr : r ∈ opcodeMap) (w : Word) :
    (∃ i, r.opcode.operands w = .ok i ∧ (∀ k, i.wf k = r.space.admits k (idxField w)) ∧
      (r.selector && selField w == 3#2) = false) ∨
    (r.opcode.operands w = .error .selector ∧ (r.selector && selField w == 3#2) = true) := by
  cases hs : r.selector with
  | false =>
    obtain ⟨i, hop, hwf⟩ := operands_of_row_without_selector hr hs w
    exact .inl ⟨i, hop, hwf, rfl⟩
  | true =>
    obtain ⟨mk, hop, hwf⟩ := operands_of_row_with_selector hr hs w
    cases he : Endpoint.ofSel (selField w) with
    | none =>
      have h3 : selField w = 3#2 := Endpoint.ofSel_eq_none.1 he
      exact .inr ⟨by simp only [hop, withSelector, he], by simp [h3]⟩
    | some e =>
      have h3 : selField w ≠ 3#2 := fun h => by simp [Endpoint.ofSel_eq_none.2 h] at he
      exact .inl ⟨mk e, by simp only [hop, withSelector, he], hwf e, by simp [h3]⟩

/-! ### R50's procedure and the decoder -/

/-- R50's procedure on a word that finds a row. -/
theorem refusal_of_row {w : Word} {r : OpRow} (k : Config)
    (h : (opcodeMap.find? fun r => r.op == opField w) = some r) :
    refusal k w =
      if w &&& r.format.zeroMask ≠ 0#32 then some .mbz
      else if !r.space.admits k (idxField w) then some .index
      else if r.selector && selField w == 3#2 then some .selector
      else none := by
  simp only [refusal, h]

/-- The procedure and the decoder on every word: the decoder reads an instruction, and the procedure refuses the word
only for its index; or the decoder rejects the word, and the procedure refuses it. -/
theorem refusal_cases (k : Config) (w : Word) :
    (∃ i, decode w = .ok i ∧ refusal k w = if i.wf k then none else some .index) ∨
    (∃ e r, decode w = .error e ∧ refusal k w = some r) := by
  cases hrow : opcodeMap.find? fun r => r.op == opField w with
  | none => exact .inr ⟨.opcode, .opcode, decode_of_no_row hrow, by simp only [refusal, hrow]⟩
  | some r =>
    rw [decode_of_row hrow, refusal_of_row k hrow]
    by_cases hz : w &&& r.format.zeroMask = 0#32
    · rcases operands_of_row (List.mem_of_find?_eq_some hrow) w with ⟨i, hop, hwf, hsel⟩ | ⟨hop, hsel⟩
      · refine .inl ⟨i, by simp [hz, hop], ?_⟩
        rw [hwf k, hsel]
        cases r.space.admits k (idxField w) <;> simp [hz]
      · refine .inr ⟨.selector, ?_⟩
        rw [hsel]
        cases r.space.admits k (idxField w) <;> simp [hz, hop]
    · exact .inr ⟨.mbz, .mbz, by simp [hz], by simp [hz]⟩

/-- A word that the procedure accepts decodes to an instruction that is well formed for the configuration. -/
theorem decode_of_refusal_none {k : Config} {w : Word} (h : refusal k w = none) :
    ∃ i, decode w = .ok i ∧ i.wf k = true := by
  rcases refusal_cases k w with ⟨i, hd, hr⟩ | ⟨_, _, _, hr⟩
  · cases hwf : i.wf k with
    | true => exact ⟨i, hd, hwf⟩
    | false => simp [hr, hwf] at h
  · simp [hr] at h

/-- A word that the procedure refuses is one that the decoder rejects or whose index names nothing that was built. -/
theorem decode_of_refusal_some {k : Config} {w : Word} {r : RefuseReason} (h : refusal k w = some r) :
    (∃ e, decode w = .error e) ∨ ∃ i, decode w = .ok i ∧ i.wf k = false := by
  rcases refusal_cases k w with ⟨i, hd, hr⟩ | ⟨e, _, hd, _⟩
  · cases hwf : i.wf k with
    | true => simp [hr, hwf] at h
    | false => exact .inr ⟨i, hd, hwf⟩
  · exact .inl ⟨e, hd⟩

end Sys2Proof

namespace Sys2Proof.Machine

/-! ### The step on a command word and on a pin event -/

/-- A refusal is what R113 says. -/
theorem refusedTo_refuse (s : State) : refusedTo s s.refuse :=
  ⟨⟨rfl, rfl, rfl, rfl⟩, rfl, rfl, rfl, rfl⟩

/-- A command on an index that is no channel is refused. -/
theorem onChannel_of_not_ok {s : State} {c : Index} (body : Channel → State) (h : channelIndexOk s.cfg c = false) :
    s.onChannel c body = s.refuse :=
  onChannel_of_ge s body (by simpa [channelIndexOk] using h)

/-- A command on an index that is no filter is refused. -/
theorem onFilter_of_not_ok {s : State} {f : Index} (body : Rat → State) (h : filterIndexOk s.cfg f = false) :
    s.onFilter f body = s.refuse :=
  onFilter_of_ge s body (by simpa [filterIndexOk] using h)

/-- A command whose index names nothing that was built is refused (R50, R113). -/
theorem exec_of_not_wf {s : State} {i : Instr} {w : Word} (hc : encode i = .command w) (hwf : i.wf s.cfg = false) :
    exec i s = .next s.refuse := by
  cases i with
  | fstep f | fpeek f | frst f => exact congrArg _ (onFilter_of_not_ok _ hwf)
  | rdst c | norm c | rdnv c | ldep c | wrep c | rdep c => exact congrArg _ (onChannel_of_not_ok _ hwf)
  | poll | rdtime => cases hwf
  | edgeRise c | edgeFall c => cases hc

/-- A step on a command word that decodes executes the instruction. -/
theorem step_of_decode_ok {s : State} {w : Word} {i : Instr} {rest : List Input}
    (hs : s.inputs = .event (.command w) :: rest) (hd : decode w = .ok i) : step s = exec i (s.consume rest) := by
  rw [step_cons hs, fetch_of_decode_ok hd]
  rfl

/-- A step on a command word that does not decode refuses it. -/
theorem step_of_decode_error {s : State} {w : Word} {e : RefuseReason} {rest : List Input}
    (hs : s.inputs = .event (.command w) :: rest) (hd : decode w = .error e) :
    step s = .next (s.consume rest).refuse := by
  rw [step_cons hs, fetch_of_decode_error hd]
  rfl

/-- A step on a word that R50's procedure refuses is a refusal, whichever of its tests failed. -/
theorem step_of_refusal {s : State} {w : Word} {r : RefuseReason} {rest : List Input}
    (hs : s.inputs = .event (.command w) :: rest) (hr : refusal s.cfg w = some r) :
    step s = .next (s.consume rest).refuse := by
  rcases decode_of_refusal_some hr with ⟨e, hd⟩ | ⟨i, hd, hwf⟩
  · exact step_of_decode_error hs hd
  · rw [step_of_decode_ok hs hd]
    exact exec_of_not_wf (acceptedWordIsItsEncoding w i hd) hwf

/-- Settles O4: an accepted word by `decode_of_refusal_none`, a refused one by `step_of_refusal`. -/
theorem stepFollowsDecodingProcedure : Obligations.StepFollowsDecodingProcedure := by
  unfold Obligations.StepFollowsDecodingProcedure
  intro s w rest hs
  refine ⟨fun hr => ?accepted, fun r hr => ?refused⟩
  case accepted =>
    obtain ⟨i, hd, hwf⟩ := decode_of_refusal_none hr
    exact ⟨i, hd, hwf, step_of_decode_ok hs hd⟩
  case refused => exact ⟨_, step_of_refusal hs hr, refusedTo_refuse _⟩

/-- A step on a pin's levels runs the event that they select, or does nothing (R60). -/
theorem step_of_pin {s : State} {c : Index} {before after : Bool} {rest : List Input}
    (hs : s.inputs = .event (.pin c before after) :: rest) :
    step s = (decodePin c before after).elim (.next (s.consume rest)) (exec · (s.consume rest)) := by
  rw [step_cons hs]
  cases before <;> cases after <;> rfl

/-- Settles O7: `step_of_pin` at the four pairs of levels. -/
theorem stepRunsPinEvent : Obligations.StepRunsPinEvent := by
  unfold Obligations.StepRunsPinEvent
  intro s c rest
  refine ⟨fun hs => step_of_pin hs, fun hs => step_of_pin hs, fun level hs => ?_⟩
  cases level with
  | false => exact step_of_pin hs
  | true => exact step_of_pin hs

end Sys2Proof.Machine


/-! ## The filter family (R66 to R72) -/

namespace Sys2Proof

/-- The decoder on a word whose opcode field is that of `o` (R50, R53, R55). -/
theorem decode_of_opField {w : Word} (o : Opcode) (h : opField w = o.bits) :
    decode w = if w &&& o.format.zeroMask = 0#32 then o.operands w else .error .mbz := by
  simp only [decode, h, Opcode.ofBits_bits, ne_eq, ite_not]

end Sys2Proof

namespace Sys2Proof.Machine

/-! ### The spacing and one rounding (R66) -/

/-- A format that rounds has at least 24 bits, and reaches below 1. -/
theorem precision_bounds {fmt : FiltFmt} {p emin : Int} (hf : fmtParams fmt = some (p, emin)) :
    24 ≤ p ∧ emin ≤ -126 := by
  rcases fmt_cases fmt with rfl | ⟨p', emin', hf', hp, hemin⟩
  · cases hf
  · cases hf.symm.trans hf'
    exact ⟨hp, hemin⟩

/-- The spacing as an integer power of 2. -/
theorem ulp_eq_zpow (p emin : Int) (q : Rat) : ulp p emin q = (2 : Rat) ^ (max (floorLog2 q) emin - p + 1) :=
  pow2_eq _

/-- The binary exponent does not see the sign. -/
theorem floorLog2_neg (q : Rat) : floorLog2 (-q) = floorLog2 q := by
  simp only [floorLog2, Rat.num_neg_eq_neg_num, Rat.den_neg_eq_den, Int.natAbs_neg]

/-- Nor does the spacing. -/
theorem ulp_neg (p emin : Int) (q : Rat) : ulp p emin (-q) = ulp p emin q := by
  rw [ulp, ulp, floorLog2_neg]

/-- The binary exponents of two positive numbers are ordered as they are. -/
theorem floorLog2_mono {a b : Rat} (ha : 0 < a) (hab : a ≤ b) : floorLog2 a ≤ floorLog2 b := by
  have hb : 0 < b := ha.trans_le hab
  have hlow := (floorLog2_spec ha.ne').1
  have hhigh := (floorLog2_spec hb.ne').2
  rw [abs_of_pos ha] at hlow
  rw [abs_of_pos hb] at hhigh
  have hlt : (2 : Rat) ^ floorLog2 a < (2 : Rat) ^ (floorLog2 b + 1) := hlow.trans_lt (hab.trans_lt hhigh)
  have := (zpow_lt_zpow_iff_right₀ (by norm_num : (1 : Rat) < 2)).mp hlt
  omega

/-- A power of 2 is a multiple of every smaller one. -/
theorem exists_zpow_eq_mul {k m : Int} (h : k ≤ m) : ∃ j : Int, (2 : Rat) ^ m = (2 : Rat) ^ k * (j : Rat) := by
  refine ⟨2 ^ (m - k).toNat, ?_⟩
  have hexp : m = k + ((m - k).toNat : Int) := by omega
  conv_lhs => rw [hexp, zpow_add₀ (by norm_num), zpow_natCast]
  push_cast
  rfl

/-- How far a rounding moves a number, in units of the spacing. -/
theorem abs_rnd_sub {fmt : FiltFmt} {p emin : Int} {q : Rat} (hf : fmtParams fmt = some (p, emin)) (hq : q ≠ 0) :
    |rnd fmt q - q| = ulp p emin q * |(nearestEven (q / ulp p emin q) : Rat) - q / ulp p emin q| := by
  have hu := ulp_pos p emin q
  calc |rnd fmt q - q|
      = |ulp p emin q * ((nearestEven (q / ulp p emin q) : Rat) - q / ulp p emin q)| := by
        rw [rnd_of_ne hf hq, mul_sub, mul_div_cancel₀ q hu.ne']
    _ = _ := by rw [abs_mul, abs_of_pos hu]

/-- A rounding goes to the nearest multiple of the spacing, an exact half to the even one. -/
theorem rnd_nearest {fmt : FiltFmt} {p emin : Int} {q : Rat} (hf : fmtParams fmt = some (p, emin)) (hq : q ≠ 0) :
    |rnd fmt q - q| ≤ ulp p emin q / 2 ∧
      (|rnd fmt q - q| = ulp p emin q / 2 → nearestEven (q / ulp p emin q) % 2 = 0) := by
  have hu := ulp_pos p emin q
  obtain ⟨hle, heven⟩ := nearestEven_spec (q / ulp p emin q)
  rw [abs_rnd_sub hf hq, div_eq_mul_one_div (ulp p emin q)]
  exact ⟨mul_le_mul_of_nonneg_left hle hu.le, fun h => heven (mul_left_cancel₀ hu.ne' h)⟩

/-! ### What a rounding leaves and how it orders (R66) -/

/-- `rnd` is odd. -/
theorem rnd_neg (fmt : FiltFmt) (q : Rat) : rnd fmt (-q) = -rnd fmt q := by
  rcases fmt_cases fmt with rfl | ⟨p, emin, hf, _, _⟩
  · rfl
  · by_cases hq : q = 0
    · subst hq; simp
    · rw [rnd_of_ne hf hq, rnd_of_ne hf (neg_ne_zero.mpr hq), ulp_neg, neg_div, nearestEven_neg]
      push_cast
      ring

/-- A number at most a multiple of its own spacing is rounded to at most that multiple. -/
theorem rnd_le_of_le_multiple {fmt : FiltFmt} {p emin : Int} {q : Rat} (hf : fmtParams fmt = some (p, emin))
    (hq : q ≠ 0) {j : Int} (h : q ≤ ulp p emin q * (j : Rat)) : rnd fmt q ≤ ulp p emin q * (j : Rat) := by
  have hu := ulp_pos p emin q
  have hj : nearestEven (q / ulp p emin q) ≤ j := by
    rw [← nearestEven_intCast j]
    exact nearestEven_mono ((div_le_iff₀' hu).mpr h)
  rw [rnd_of_ne hf hq]
  gcongr

/-- A number at least a multiple of its own spacing is rounded to at least that multiple, by oddness. -/
theorem le_rnd_of_multiple_le {fmt : FiltFmt} {p emin : Int} {q : Rat} (hf : fmtParams fmt = some (p, emin))
    (hq : q ≠ 0) {j : Int} (h : ulp p emin q * (j : Rat) ≤ q) : ulp p emin q * (j : Rat) ≤ rnd fmt q := by
  have hneg : -q ≤ ulp p emin (-q) * ((-j : Int) : Rat) := by
    rw [ulp_neg, Int.cast_neg, mul_neg]
    exact neg_le_neg h
  have hle := rnd_le_of_le_multiple hf (neg_ne_zero.mpr hq) hneg
  rwa [rnd_neg, ulp_neg, Int.cast_neg, mul_neg, neg_le_neg_iff] at hle

/-- A multiple of its own spacing is not changed. -/
theorem rnd_of_multiple {fmt : FiltFmt} {p emin : Int} {q : Rat} (hf : fmtParams fmt = some (p, emin))
    (hq : q ≠ 0) {j : Int} (h : q = ulp p emin q * (j : Rat)) : rnd fmt q = q := by
  have hdiv : q / ulp p emin q = (j : Rat) := (div_eq_iff (ulp_pos p emin q).ne').mpr (by rwa [mul_comm])
  rw [rnd_of_ne hf hq, hdiv, nearestEven_intCast, ← h]

/-- `rnd` keeps the sign: zero is a multiple of every spacing. -/
theorem rnd_nonneg (fmt : FiltFmt) {q : Rat} (h : 0 ≤ q) : 0 ≤ rnd fmt q := by
  rcases fmt_cases fmt with rfl | ⟨p, emin, hf, _, _⟩
  · exact h
  · rcases h.eq_or_lt with rfl | hpos
    · exact (rnd_zero fmt).ge
    · simpa using le_rnd_of_multiple_le hf hpos.ne' (j := 0) (by simpa using h)

theorem rnd_nonpos (fmt : FiltFmt) {q : Rat} (h : q ≤ 0) : rnd fmt q ≤ 0 := by
  have := rnd_nonneg fmt (neg_nonneg.mpr h)
  rwa [rnd_neg, neg_nonneg] at this

/-- `rnd` is non-decreasing on the positive numbers: where the spacings differ, the power of 2 below the greater number
is a multiple of both and stands between the two results. -/
theorem rnd_mono_of_pos (fmt : FiltFmt) {a b : Rat} (ha : 0 < a) (hab : a ≤ b) : rnd fmt a ≤ rnd fmt b := by
  rcases fmt_cases fmt with rfl | ⟨p, emin, hf, hp, _⟩
  · exact hab
  have hb : 0 < b := ha.trans_le hab
  have hE := floorLog2_mono ha hab
  by_cases hsame : max (floorLog2 a) emin = max (floorLog2 b) emin
  · have hu : ulp p emin a = ulp p emin b := by rw [ulp, ulp, hsame]
    rw [rnd_of_ne hf ha.ne', rnd_of_ne hf hb.ne', hu]
    have hub := ulp_pos p emin b
    have hquot := nearestEven_mono (div_le_div_of_nonneg_right hab hub.le)
    gcongr
  · obtain ⟨i, hi⟩ := exists_zpow_eq_mul (show max (floorLog2 a) emin - p + 1 ≤ floorLog2 b by omega)
    obtain ⟨j, hj⟩ := exists_zpow_eq_mul (show max (floorLog2 b) emin - p + 1 ≤ floorLog2 b by omega)
    rw [← ulp_eq_zpow] at hi hj
    have hlow : a ≤ (2 : Rat) ^ floorLog2 b :=
      calc a = |a| := (abs_of_pos ha).symm
        _ ≤ (2 : Rat) ^ (floorLog2 a + 1) := (floorLog2_spec ha.ne').2.le
        _ ≤ (2 : Rat) ^ floorLog2 b := zpow_le_zpow_right₀ (by norm_num) (by omega)
    have hhigh : (2 : Rat) ^ floorLog2 b ≤ b := by
      simpa only [abs_of_pos hb] using (floorLog2_spec hb.ne').1
    calc rnd fmt a ≤ (2 : Rat) ^ floorLog2 b := hi ▸ rnd_le_of_le_multiple hf ha.ne' (hi ▸ hlow)
      _ ≤ rnd fmt b := hj ▸ le_rnd_of_multiple_le hf hb.ne' (hj ▸ hhigh)

/-- `rnd` is non-decreasing: across zero by the signs, on the negative numbers by oddness. -/
theorem rnd_mono (fmt : FiltFmt) {a b : Rat} (hab : a ≤ b) : rnd fmt a ≤ rnd fmt b := by
  rcases lt_or_ge 0 a with ha | ha
  · exact rnd_mono_of_pos fmt ha hab
  rcases lt_or_ge b 0 with hb | hb
  · have := rnd_mono_of_pos fmt (neg_pos.mpr hb) (neg_le_neg hab)
    rwa [rnd_neg, rnd_neg, neg_le_neg_iff] at this
  · exact (rnd_nonpos fmt ha).trans (rnd_nonneg fmt hb)

/-! ### The numbers of a format (R66) -/

/-- A number is a multiple of what its magnitude is a multiple of. -/
theorem exists_eq_mul_of_abs {u q : Rat} {j : Int} (h : |q| = u * (j : Rat)) : ∃ i : Int, q = u * (i : Rat) := by
  rcases abs_choice q with hq | hq
  · exact ⟨j, by rw [← h, hq]⟩
  · exact ⟨-j, by push_cast; linarith⟩

/-- All that the binary exponent of a significand of at most `p` bits times `2^k` can be: less than `p + k`, or `p + k`
where the magnitude is that power of 2 itself. -/
theorem floorLog2_cases_of_significand {p n k : Int} {q : Rat} (hq : q ≠ 0) (h : q = (n : Rat) * (2 : Rat) ^ k)
    (hn : |(n : Rat)| ≤ (2 : Rat) ^ p) :
    floorLog2 q < p + k ∨ (floorLog2 q = p + k ∧ |q| = (2 : Rat) ^ (p + k)) := by
  have hlow := (floorLog2_spec hq).1
  have hk : (0 : Rat) < (2 : Rat) ^ k := by positivity
  have hle : |q| ≤ (2 : Rat) ^ (p + k) :=
    calc |q| = |(n : Rat)| * (2 : Rat) ^ k := by rw [h, abs_mul, abs_of_pos hk]
      _ ≤ (2 : Rat) ^ p * (2 : Rat) ^ k := by gcongr
      _ = (2 : Rat) ^ (p + k) := (zpow_add₀ (by norm_num) p k).symm
  have hE := (zpow_le_zpow_iff_right₀ (by norm_num : (1 : Rat) < 2)).mp (hlow.trans hle)
  rcases hE.lt_or_eq with hlt | heq
  · exact .inl hlt
  · exact .inr ⟨heq, le_antisymm hle (heq ▸ hlow)⟩

/-- A significand of at most `p` bits times a power of 2 that is not below the least spacing is a multiple of its own
spacing: that is at most the power, or, where the significand is `2^p`, the double of it. -/
theorem exists_multiple_of_significand {p emin n k : Int} {q : Rat} (hq : q ≠ 0) (h : q = (n : Rat) * (2 : Rat) ^ k)
    (hn : |(n : Rat)| ≤ (2 : Rat) ^ p) (hp : 1 ≤ p) (hk : emin - p + 1 ≤ k) :
    ∃ j : Int, q = ulp p emin q * (j : Rat) := by
  rw [ulp_eq_zpow]
  rcases floorLog2_cases_of_significand hq h hn with hlt | ⟨heq, habs⟩
  · obtain ⟨i, hi⟩ := exists_zpow_eq_mul (show max (floorLog2 q) emin - p + 1 ≤ k by omega)
    exact ⟨n * i, by rw [Int.cast_mul, mul_left_comm, ← hi, ← h]⟩
  · obtain ⟨i, hi⟩ := exists_zpow_eq_mul (show max (floorLog2 q) emin - p + 1 ≤ p + k by omega)
    exact exists_eq_mul_of_abs (habs.trans hi)

/-- `rnd` fixes the numbers of its format. -/
theorem rnd_of_significand {fmt : FiltFmt} {p emin n k : Int} {q : Rat} (hf : fmtParams fmt = some (p, emin))
    (h : q = (n : Rat) * (2 : Rat) ^ k) (hn : |(n : Rat)| ≤ (2 : Rat) ^ p) (hk : emin - p + 1 ≤ k) :
    rnd fmt q = q := by
  by_cases hq : q = 0
  · rw [hq, rnd_zero]
  · obtain ⟨hp, _⟩ := precision_bounds hf
    obtain ⟨j, hj⟩ := exists_multiple_of_significand hq h hn (by omega) hk
    exact rnd_of_multiple hf hq hj

/-- `nearest_even` keeps a bound that is an integer. -/
theorem abs_nearestEven_le {q : Rat} {m : Int} (h : |q| ≤ (m : Rat)) : |nearestEven q| ≤ m := by
  obtain ⟨hlow, hhigh⟩ := abs_le.mp h
  have h1 := nearestEven_mono hlow
  have h2 := nearestEven_mono hhigh
  rw [nearestEven_neg, nearestEven_intCast] at h1
  rw [nearestEven_intCast] at h2
  exact abs_le.mpr ⟨h1, h2⟩

/-- A number that is not zero is at most `2^p` units of its spacing. -/
theorem abs_div_ulp_le (p emin : Int) {q : Rat} (hq : q ≠ 0) : |q / ulp p emin q| ≤ (2 : Rat) ^ p := by
  have hu := ulp_pos p emin q
  rw [abs_div, abs_of_pos hu, div_le_iff₀ hu, ulp_eq_zpow, ← zpow_add₀ (by norm_num)]
  calc |q| ≤ (2 : Rat) ^ (floorLog2 q + 1) := (floorLog2_spec hq).2.le
    _ ≤ _ := zpow_le_zpow_right₀ (by norm_num) (by omega)

/-- A rounded number has a significand of at most `p` bits. -/
theorem exists_significand_of_rnd {fmt : FiltFmt} {p emin : Int} (hf : fmtParams fmt = some (p, emin)) (q : Rat) :
    ∃ n k : Int, |(n : Rat)| ≤ (2 : Rat) ^ p ∧ emin - p + 1 ≤ k ∧ rnd fmt q = (n : Rat) * (2 : Rat) ^ k := by
  by_cases hq : q = 0
  · exact ⟨0, emin - p + 1, by simpa using zpow_nonneg (by norm_num : (0 : Rat) ≤ 2) p, le_rfl, by simp [hq]⟩
  · obtain ⟨hp, _⟩ := precision_bounds hf
    obtain ⟨m, hm⟩ := exists_zpow_eq_mul (show 0 ≤ p by omega)
    rw [zpow_zero, one_mul] at hm
    refine ⟨nearestEven (q / ulp p emin q), max (floorLog2 q) emin - p + 1, ?_, by omega, ?_⟩
    · have hbound := abs_div_ulp_le p emin hq
      rw [hm] at hbound ⊢
      exact_mod_cast abs_nearestEven_le hbound
    · rw [rnd_of_ne hf hq, mul_comm, ulp_eq_zpow]

/-- `rnd` fixes what it returns: `FNum` (R66). -/
theorem rnd_of_isFNum {fmt : FiltFmt} {a : Rat} (h : isFNum fmt a) : rnd fmt a = a := by
  obtain ⟨q, rfl⟩ := h
  rcases fmt_cases fmt with rfl | ⟨p, emin, hf, _, _⟩
  · rfl
  · obtain ⟨n, k, hn, hk, hq⟩ := exists_significand_of_rnd hf q
    exact rnd_of_significand hf hq hn hk

/-- `rnd` fixes every integer of magnitude at most `2^p` (R66). -/
theorem rnd_intCast {fmt : FiltFmt} {p emin n : Int} (hf : fmtParams fmt = some (p, emin))
    (hn : |(n : Rat)| ≤ (2 : Rat) ^ p) : rnd fmt (n : Rat) = (n : Rat) := by
  obtain ⟨hp, hemin⟩ := precision_bounds hf
  exact rnd_of_significand hf (k := 0) (by simp) hn (by omega)

/-- Settles O45: each clause by its lemma, with the binary exponent of q as E and the rounded quotient as n. -/
theorem rndRoundsToNearestEven : Obligations.RndRoundsToNearestEven := by
  unfold Obligations.RndRoundsToNearestEven
  refine ⟨rnd_exact, rnd_zero, ?nearest, fun fmt a b => rnd_mono fmt, rnd_neg, fun fmt q => rnd_of_isFNum,
    fun fmt p emin n => rnd_intCast⟩
  case nearest =>
    intro fmt p emin q hf hq
    obtain ⟨hlow, hhigh⟩ := floorLog2_spec hq
    obtain ⟨hnear, heven⟩ := rnd_nearest hf hq
    rw [ulp_eq_zpow] at hnear
    refine ⟨floorLog2 q, nearestEven (q / ulp p emin q), hlow, hhigh, ?_, hnear, ?_⟩
    · rw [rnd_of_ne hf hq, mul_comm, ulp_eq_zpow]
    · rwa [ulp_eq_zpow p emin q] at heven ⊢

/-! ### `round_int` (R68) -/

/-- `round_int` is within one half of its argument, under either tie rule. -/
theorem roundInt_near (t : RoundTie) (q : Rat) : |(roundInt t q : Rat) - q| ≤ 1 / 2 := by
  cases t with
  | away => exact nearestAway_spec q
  | even => exact (nearestEven_spec q).1

/-- `round_int` fixes the integers. -/
@[simp] theorem roundInt_intCast (t : RoundTie) (n : Int) : roundInt t (n : Rat) = n :=
  roundInt_of_near t (by simp)

/-- Of two integers within one half of `q`, the greater is one half above `q`. -/
theorem eq_add_half_of_near {q : Rat} {m n : Int} (hm : |(m : Rat) - q| ≤ 1 / 2) (hn : |(n : Rat) - q| ≤ 1 / 2)
    (h : m < n) : q = (m : Rat) + 1 / 2 := by
  obtain ⟨hm, _⟩ := abs_le.mp hm
  obtain ⟨_, hn⟩ := abs_le.mp hn
  have h1 : (m : Rat) + 1 ≤ n := by exact_mod_cast h
  linarith

/-- Settles O46: AWAY and EVEN by their own lemmas; both are within one half, so they differ only halfway. -/
theorem roundIntTies : Obligations.RoundIntTies := by
  unfold Obligations.RoundIntTies
  intro q
  obtain ⟨hnear, heven⟩ := nearestEven_spec q
  refine ⟨nearestAway_eq q, hnear, heven, fun hne => ?_⟩
  rcases lt_or_gt_of_ne hne with h | h
  · exact ⟨_, eq_add_half_of_near (roundInt_near .away q) (roundInt_near .even q) h⟩
  · exact ⟨_, eq_add_half_of_near (roundInt_near .even q) (roundInt_near .away q) h⟩

/-! ### The filter's arithmetic (R67, R69) -/

/-- Every format fixes the integers of up to 24 bits. -/
theorem rnd_intCast_of_le (fmt : FiltFmt) {n : Int} (hn : |n| ≤ 2 ^ 24) : rnd fmt (n : Rat) = (n : Rat) := by
  rcases fmt_cases fmt with rfl | ⟨p, emin, hf, hp, _⟩
  · rfl
  · refine rnd_intCast hf ?_
    calc |(n : Rat)| ≤ (2 : Rat) ^ (24 : Int) := by exact_mod_cast hn
      _ ≤ (2 : Rat) ^ p := zpow_le_zpow_right₀ (by norm_num) hp

/-- Every format fixes the operands (R55). -/
theorem rnd_operand (fmt : FiltFmt) (x : Half) : rnd fmt (x.toInt : Rat) = (x.toInt : Rat) := by
  have hlow := BitVec.le_toInt x
  have hhigh := BitVec.toInt_lt (x := x)
  exact rnd_intCast_of_le fmt (abs_le.mpr ⟨by omega, by omega⟩)

/-- One step of a filter: the product, the sum and the quotient, each rounded once (R67, R69). -/
theorem filterNext_eq (fmt : FiltFmt) (w : Nat) (a : Rat) (x : Int) :
    filterNext fmt w a x =
      rnd fmt (rnd fmt (rnd fmt (a * rnd fmt (w : Rat)) + rnd fmt (x : Rat)) / rnd fmt ((w : Rat) + 1)) := by
  simp only [filterNext, fmul, fadd, fdiv, fofint, Int.cast_natCast, Int.cast_add, Int.cast_one]

/-- A step of weight 0 gives the sample, whatever the running value (R72). -/
theorem filterNext_zero_weight (fmt : FiltFmt) (a : Rat) (x : Half) :
    filterNext fmt 0 a x.toInt = (x.toInt : Rat) := by
  have hone : rnd fmt 1 = 1 := by simpa using rnd_intCast_of_le fmt (n := 1) (by norm_num)
  rw [filterNext_eq]
  simp only [Nat.cast_zero, rnd_zero, mul_zero, zero_add, hone, div_one, rnd_operand]

/-! ### The meanings of the three commands (R69 to R71) -/

/-- FSTEP on a filter that was built (R69). -/
theorem exec_fstep_of_lt {s : State} {f : Index} (x : Half) (h : f.toNat < s.cfg.nfilt) :
    exec (.fstep f x) s =
      .next ((s.setAvg f (filterNext s.cfg.filtFmt (s.cfg.weight f) (s.avgAt f) x.toInt)).respond
        (BitVec.ofInt 32 (roundInt s.cfg.roundTie
          (filterNext s.cfg.filtFmt (s.cfg.weight f) (s.avgAt f) x.toInt)))) :=
  congrArg _ (onFilter_of_lt s _ h)

/-- FPEEK on a filter that was built (R70). -/
theorem exec_fpeek_of_lt {s : State} {f : Index} (h : f.toNat < s.cfg.nfilt) :
    exec (.fpeek f) s = .next (s.respond (BitVec.ofInt 32 (roundInt s.cfg.roundTie (s.avgAt f)))) :=
  congrArg _ (onFilter_of_lt s _ h)

/-- FRST on a filter that was built: every format has the operand as it is, so it is stored exactly (R71). -/
theorem exec_frst_of_lt {s : State} {f : Index} (x : Half) (h : f.toNat < s.cfg.nfilt) :
    exec (.frst f x) s = .next ((s.setAvg f (x.toInt : Rat)).respond 0#32) := by
  have hstore : fofint s.cfg.filtFmt (signedImm x) = (x.toInt : Rat) := rnd_operand s.cfg.filtFmt x
  rw [← hstore]
  exact congrArg _ (onFilter_of_lt s _ h)

/-- A command on an index that is no filter is refused (R24, R113). -/
theorem exec_refused_of_filter_ge {s : State} {i : Instr} {w : Word} {f : Index} (hc : encode i = .command w)
    (hwf : i.wf s.cfg = filterIndexOk s.cfg f) (h : s.cfg.nfilt ≤ f.toNat) :
    ∃ t, exec i s = .next t ∧ refusedTo s t :=
  ⟨_, exec_of_not_wf hc (by simp [hwf, filterIndexOk, h]), refusedTo_refuse s⟩

/-- Writing `AVG[f]` and responding changes no other register. -/
theorem sameButFilter_setAvg_respond (s : State) (f : Index) (a : Rat) (d : Word) :
    sameButFilter f s ((s.setAvg f a).respond d) :=
  ⟨rfl, rfl, rfl, by simp, fun g hg => avgAt_setAvg_ne s a hg⟩

/-- `AVG[f]` reads back as written, in a state with its whole bank. -/
theorem avgAt_setAvg_respond {s : State} {f : Index} (hb : s.banksOk) (h : f.toNat < s.cfg.nfilt) (a : Rat)
    (d : Word) : ((s.setAvg f a).respond d).avgAt f = a := by
  obtain ⟨_, _, havg⟩ := hb
  rw [avgAt_respond]
  exact avgAt_setAvg_self s f a (havg.symm ▸ h)

/-- The response to a rounded operand is the operand's sign extension (R59). -/
theorem ofInt_roundInt_toInt (t : RoundTie) (x : Half) :
    BitVec.ofInt 32 (roundInt t ((x.toInt : Int) : Rat)) = x.signExtend 32 := by
  rw [roundInt_intCast]
  rfl

/-! ### The obligations on FSTEP, FPEEK and FRST -/

/-- Settles O49: the operand is a number of every format, so FRST stores it exactly and FPEEK reads it back. -/
theorem frstForcesFilter : Obligations.FrstForcesFilter := by
  unfold Obligations.FrstForcesFilter
  refine ⟨fun w hw => decode_of_opField .frst hw, fun s f x => ⟨fun hb h => ?forced, fun h => ?refused⟩⟩
  case forced =>
    have hread := avgAt_setAvg_respond hb h (x.toInt : Rat) 0#32
    refine ⟨_, _, exec_frst_of_lt x h, hread, sameButFilter_setAvg_respond s f _ _, rfl, ⟨rfl, rfl, rfl⟩,
      exec_fpeek_of_lt h, ?_⟩
    rw [hread, ofInt_roundInt_toInt]
    rfl
  case refused => exact exec_refused_of_filter_ge rfl rfl h

/-- Settles O50: by `filterNext_zero_weight`. -/
theorem zeroWeightPassesThrough : Obligations.ZeroWeightPassesThrough := by
  unfold Obligations.ZeroWeightPassesThrough
  intro s f x hb h hw
  refine ⟨_, exec_fstep_of_lt x h, ?_, ?_⟩
  · rw [avgAt_setAvg_respond hb h, hw, filterNext_zero_weight]
  · rw [hw, filterNext_zero_weight, ofInt_roundInt_toInt]
    rfl

/-- Settles O47: `exec_fstep_of_lt`, with the three roundings of `filterNext_eq`. -/
theorem fstepAdvancesFilter : Obligations.FstepAdvancesFilter := by
  unfold Obligations.FstepAdvancesFilter
  refine ⟨fun w hw => decode_of_opField .fstep hw, fun s f x => ⟨fun hb h => ?stepped, fun h => ?refused⟩⟩
  case stepped =>
    exact ⟨_, _, exec_fstep_of_lt x h, filterNext_eq _ _ _ _, avgAt_setAvg_respond hb h _ _,
      sameButFilter_setAvg_respond s f _ _, rfl, rfl, rfl, rfl⟩
  case refused => exact exec_refused_of_filter_ge rfl rfl h

/-- Settles O48: by `exec_fpeek_of_lt`. -/
theorem fpeekReadsFilter : Obligations.FpeekReadsFilter := by
  unfold Obligations.FpeekReadsFilter
  refine ⟨fun w hw => decode_of_opField .fpeek hw, fun s f => ⟨fun h => ?peeked, fun h => ?refused⟩⟩
  case peeked => exact ⟨_, exec_fpeek_of_lt h, rfl, ⟨rfl, rfl, rfl, rfl⟩, rfl, rfl, rfl⟩
  case refused => exact exec_refused_of_filter_ge rfl rfl h

end Sys2Proof.Machine


/-! ## The capture family (R79 to R88) -/

namespace Sys2Proof.Machine

/-! ### The clock step (R79) -/

/-- A step on an advance of the clock. -/
theorem step_of_advance {s : State} {d : Nat} {rest : List Input} (hs : s.inputs = .event (.advance d) :: rest) :
    step s = .next ((s.consume rest).advance d) := step_cons hs

/-- An advance by a multiple of 2^32 changes nothing. -/
theorem advance_of_ofNat_eq_zero (s : State) {d : Nat} (h : BitVec.ofNat 32 d = 0#32) : s.advance d = s := by
  simp only [State.advance, h, BitVec.add_zero]

/-- Two advances are one of their sum, whatever is taken from the inputs between them. -/
theorem consume_advance_advance (s : State) (rest : List Input) (a b : Nat) :
    ((s.advance a).consume rest).advance b = (s.consume rest).advance (a + b) := by
  simp only [State.advance, State.consume, BitVec.ofNat_add, BitVec.add_assoc]

/-- A run of one step is the step, when it completes. -/
theorem runN_one {s t : State} (h : step s = .next t) : runN 1 s = .next t :=
  (runN_succ 0 h).trans (runN_zero t)

/-- Settles O20: each clause by the clock step's own lemma. -/
theorem advanceIsModular : Obligations.AdvanceIsModular := by
  unfold Obligations.AdvanceIsModular
  refine fun s rest => ⟨fun d hs => ?effect, fun d hd hs => ?corner, fun a b hs => ?sum⟩
  case effect =>
    exact ⟨_, step_of_advance hs, by simp, rfl, rfl, rfl, rfl, rfl, rfl, rfl⟩
  case corner =>
    have hzero : BitVec.ofNat 32 d = 0#32 := by rcases hd with rfl | rfl <;> rfl
    rw [step_of_advance hs, advance_of_ofNat_eq_zero _ hzero]
    rfl
  case sum =>
    have hsum : step { s with inputs := .event (.advance (a + b)) :: rest } =
        .next ((s.consume rest).advance (a + b)) := step_of_advance rfl
    rw [hsum, runN_succ 1 (step_of_advance hs), runN_one (step_of_advance rfl), consume_advance_advance]
    rfl

/-! ### The meanings of the pin events, POLL and RDST (R80 to R84) -/

/-- EDGE.RISE of a present channel (R80). -/
theorem exec_edgeRise_of_present {s : State} {c : Index} (h : s.cfg.present c = true) :
    exec (.edgeRise c) s = .next (s.setChannel c { s.channel c with riseTs := s.time }) :=
  congrArg _ (if_pos h)

/-- EDGE.FALL of a present channel (R81). -/
theorem exec_edgeFall_of_present {s : State} {c : Index} (h : s.cfg.present c = true) :
    exec (.edgeFall c) s = .next (s.setChannel c { s.channel c with raw := s.time - (s.channel c).riseTs }) :=
  congrArg _ (if_pos h)

/-- An edge of a channel that is not present has no effect (R82). -/
theorem onPin_of_not_present {s : State} {c : Index} (body : Channel → Channel) (h : s.cfg.present c = false) :
    s.onPin c body = s := by simp [State.onPin, h]

/-- A write of channel `c` leaves every register but those of the channel. -/
theorem sameButChannel_setChannel (s : State) (c : Index) (ch : Channel) : sameButChannel c s (s.setChannel c ch) :=
  ⟨rfl, rfl, rfl, List.length_set, fun _ hd => channel_setChannel_ne s ch hd⟩

/-- A present channel reads as it was last written, in a state with its whole bank. -/
theorem channel_setChannel_of_present {s : State} {c : Index} (hb : s.banksOk) (h : s.cfg.present c = true)
    (ch : Channel) : (s.setChannel c ch).channel c = ch := by
  obtain ⟨_, hlen, _⟩ := hb
  exact channel_setChannel_self s c ch (hlen.symm ▸ Config.lt_of_present h)

/-- The difference of two words is that of their values modulo 2^32. -/
theorem toNat_sub_eq_emod (a b : Word) : ((a - b).toNat : Int) = ((a.toNat : Int) - (b.toNat : Int)) % 2 ^ 32 := by
  have := a.isLt
  have := b.isLt
  rw [BitVec.toNat_sub]
  omega

/-- Settles O21: a present channel by `exec_edgeRise_of_present`, any other by `onPin_of_not_present`. -/
theorem edgeRiseRecordsTime : Obligations.EdgeRiseRecordsTime := by
  unfold Obligations.EdgeRiseRecordsTime
  refine fun s c => ⟨rfl, fun hb hp => ?present, fun _ hp => ?absent⟩
  case present =>
    exact ⟨_, exec_edgeRise_of_present hp, channel_setChannel_of_present hb hp _, sameButChannel_setChannel s c _,
      (List.append_nil _).symm, rfl, rfl, rfl⟩
  case absent => exact congrArg _ (onPin_of_not_present _ hp)

/-- Settles O22: a present channel by `exec_edgeFall_of_present`, any other by `onPin_of_not_present`. -/
theorem edgeFallStoresDifference : Obligations.EdgeFallStoresDifference := by
  unfold Obligations.EdgeFallStoresDifference
  refine fun s c => ⟨rfl, fun hb hp => ?present, fun _ hp => ?absent⟩
  case present =>
    exact ⟨_, _, exec_edgeFall_of_present hp, channel_setChannel_of_present hb hp _, toNat_sub_eq_emod _ _,
      sameButChannel_setChannel s c _, (List.append_nil _).symm, rfl, rfl, rfl⟩
  case absent => exact congrArg _ (onPin_of_not_present _ hp)

/-- RDST of a channel (R84). -/
theorem exec_rdst_of_lt {s : State} {c : Index} (h : c.toNat < s.cfg.nch) :
    exec (.rdst c) s = .next (s.respond (s.channel c).staged) :=
  congrArg _ (onChannel_of_lt s _ h)

/-- A command on an index that is no channel is refused (R24, R113). -/
theorem exec_refused_of_channel_ge {s : State} {i : Instr} {w : Word} {c : Index} (hc : encode i = .command w)
    (hwf : i.wf s.cfg = channelIndexOk s.cfg c) (h : s.cfg.nch ≤ c.toNat) :
    ∃ t, exec i s = .next t ∧ refusedTo s t :=
  ⟨_, exec_of_not_wf hc (by simp [hwf, channelIndexOk, h]), refusedTo_refuse s⟩

/-- Settles O25: by `exec_rdst_of_lt`. -/
theorem rdstReadsStaged : Obligations.RdstReadsStaged := by
  unfold Obligations.RdstReadsStaged
  refine ⟨fun w hw => decode_of_opField .rdst hw, fun s c => ⟨fun h => ?read, fun h => ?refused⟩⟩
  case read => exact ⟨_, exec_rdst_of_lt h, rfl, ⟨rfl, rfl, rfl, rfl⟩, rfl, rfl, rfl⟩
  case refused => exact exec_refused_of_channel_ge rfl rfl h

end Sys2Proof.Machine

namespace Sys2Proof.Machine

/-! ### What an instruction does to the channels (R26) -/

/-- The channels of `t` are those of `s` but for what instruction `i` writes: every `STAGED` by POLL (R83), `RISE_TS` or
`RAW` of a present channel by its edge (R80, R81), and the other registers of one channel by a command of the mapper. -/
inductive ChannelsWritten (s t : State) : Instr → Prop
  | none {i : Instr} (heq : t.channels = s.channels) : ChannelsWritten s t i
  | staged (heq : t.channels = s.channels.map Channel.stage) : ChannelsWritten s t .poll
  | rise {c : Index} (heq : t.channels = (s.setChannel c { s.channel c with riseTs := s.time }).channels) :
      ChannelsWritten s t (.edgeRise c)
  | fall {c : Index}
      (heq : t.channels = (s.setChannel c { s.channel c with raw := s.time - (s.channel c).riseTs }).channels) :
      ChannelsWritten s t (.edgeFall c)
  | mapped {i : Instr} {c : Index} {ch : Channel} (hrise : ch.riseTs = (s.channel c).riseTs)
      (hraw : ch.raw = (s.channel c).raw) (hstaged : ch.staged = (s.channel c).staged)
      (heq : t.channels = (s.setChannel c ch).channels) : ChannelsWritten s t i

/-- What every instruction leaves (the configuration, `TIME`, what is still to be presented), and what it can do to the
channels. -/
structure ExecEffect (i : Instr) (s t : State) : Prop where
  cfg : t.cfg = s.cfg
  time : t.time = s.time
  inputs : t.inputs = s.inputs
  channels : ChannelsWritten s t i

theorem execEffect_refuse (i : Instr) (s : State) : ExecEffect i s s.refuse := ⟨rfl, rfl, rfl, .none rfl⟩

theorem execEffect_respond (i : Instr) (s : State) (d : Word) : ExecEffect i s (s.respond d) :=
  ⟨rfl, rfl, rfl, .none rfl⟩

/-- A command on a filter does what its body does, or is refused. -/
theorem execEffect_onFilter {i : Instr} {s : State} (f : Index) {body : Rat → State}
    (h : ∀ a, ExecEffect i s (body a)) : ExecEffect i s (s.onFilter f body) := by
  rcases onFilter_cases s f body with ⟨_, heq⟩ | ⟨_, heq⟩ <;> rw [heq]
  · exact h _
  · exact execEffect_refuse i s

/-- A command on a channel does what its body does to the channel's registers, or is refused. -/
theorem execEffect_onChannel {i : Instr} {s : State} {c : Index} {body : Channel → State}
    (h : ExecEffect i s (body (s.channel c))) : ExecEffect i s (s.onChannel c body) := by
  rcases onChannel_cases s c body with ⟨_, heq⟩ | ⟨_, heq⟩ <;> rw [heq]
  · exact h
  · exact execEffect_refuse i s

/-- A pin event writes what its body does to the channel's registers, or has no effect. -/
theorem execEffect_onPin {i : Instr} {s : State} {c : Index} {body : Channel → Channel}
    (h : ExecEffect i s (s.setChannel c (body (s.channel c)))) : ExecEffect i s (s.onPin c body) := by
  rcases onPin_cases s c body with ⟨_, heq⟩ | ⟨_, heq⟩ <;> rw [heq]
  · exact h
  · exact ⟨rfl, rfl, rfl, .none rfl⟩

/-- Storing an endpoint writes no capture register. -/
theorem execEffect_storeEndpoint (i : Instr) (s : State) (c : Index) (k : Endpoint) (v : Half) :
    ExecEffect i s (s.storeEndpoint c k v) := by
  cases k <;> exact ⟨rfl, rfl, rfl, .mapped (c := c) (ch := (s.channel c).setEndpoint _ v) rfl rfl rfl rfl⟩

/-- Storing `NVAL` writes no capture register. -/
theorem execEffect_storeNorm (i : Instr) (s : State) (c : Index) (v : NormWord) :
    ExecEffect i s (s.storeNorm c v) :=
  ⟨rfl, rfl, rfl, .mapped (c := c) (ch := { s.channel c with nval := v }) rfl rfl rfl rfl⟩

/-- Every instruction completes, and does no more than `ExecEffect` says. -/
theorem exec_effect (i : Instr) (s : State) : ∃ t, exec i s = .next t ∧ ExecEffect i s t := by
  cases i with
  | fstep f x => exact ⟨_, rfl, execEffect_onFilter f fun _ => ⟨rfl, rfl, rfl, .none rfl⟩⟩
  | fpeek f => exact ⟨_, rfl, execEffect_onFilter f fun _ => execEffect_respond _ s _⟩
  | frst f x => exact ⟨_, rfl, execEffect_onFilter f fun _ => ⟨rfl, rfl, rfl, .none rfl⟩⟩
  | poll => exact ⟨_, rfl, rfl, rfl, rfl, .staged rfl⟩
  | rdst c | rdnv c | rdep c k => exact ⟨_, rfl, execEffect_onChannel (execEffect_respond _ s _)⟩
  | norm c =>
    refine ⟨_, rfl, execEffect_onChannel ?_⟩
    split
    · exact execEffect_storeNorm _ s c _
    · exact ⟨rfl, rfl, rfl,
        .mapped (c := c) (ch := { s.channel c with nval := Config.normDraw s.draws }) rfl rfl rfl rfl⟩
  | ldep c k u | wrep c k u => exact ⟨_, rfl, execEffect_onChannel (execEffect_storeEndpoint _ s c k _)⟩
  | rdtime => exact ⟨_, rfl, execEffect_respond _ s _⟩
  | edgeRise c => exact ⟨_, rfl, execEffect_onPin ⟨rfl, rfl, rfl, .rise rfl⟩⟩
  | edgeFall c => exact ⟨_, rfl, execEffect_onPin ⟨rfl, rfl, rfl, .fall rfl⟩⟩

/-- What an instruction that has completed has done. -/
theorem execEffect_of_exec {i : Instr} {s t : State} (h : exec i s = .next t) : ExecEffect i s t := by
  obtain ⟨u, hu, heffect⟩ := exec_effect i s
  rw [hu] at h
  cases h
  exact heffect

/-- No instruction changes the number of channels. -/
theorem ChannelsWritten.length_eq {s t : State} {i : Instr} (h : ChannelsWritten s t i) :
    t.channels.length = s.channels.length := by
  cases h with
  | none heq => rw [heq]
  | staged heq => rw [heq, List.length_map]
  | rise heq | fall heq | mapped _ _ _ heq => rw [heq, setChannel_channels, List.length_set]

/-- All that a channel can read as after a write of channel `c`. -/
theorem channel_setChannel_cases (s : State) (c d : Index) (ch : Channel) :
    (s.setChannel c ch).channel d = s.channel d ∨ d = c ∧ (s.setChannel c ch).channel d = ch := by
  by_cases hd : d = c
  · subst hd
    by_cases hlen : d.toNat < s.channels.length
    · exact .inr ⟨rfl, channel_setChannel_self s d ch hlen⟩
    · refine .inl (congrArg (List.getD · d.toNat _) ?_)
      exact List.set_eq_of_length_le (not_lt.mp hlen)
  · exact .inl (channel_setChannel_ne s ch hd)

/-- The registers of a channel depend on the configuration and the bank alone. -/
theorem channel_congr {s t : State} (hcfg : t.cfg = s.cfg) (h : t.channels = s.channels) (c : Index) :
    t.channel c = s.channel c := by rw [State.channel, State.channel, hcfg, h]

/-- A write of a channel that keeps its `RISE_TS` keeps that of every channel. -/
theorem riseTs_setChannel {s : State} {c : Index} {ch : Channel} (h : ch.riseTs = (s.channel c).riseTs) (d : Index) :
    ((s.setChannel c ch).channel d).riseTs = (s.channel d).riseTs := by
  rcases channel_setChannel_cases s c d ch with heq | ⟨rfl, heq⟩ <;> rw [heq]
  exact h

/-- POLL's copy reads on every channel as the copy of what the channel was (R83). -/
theorem channel_map_stage (s : State) (c : Index) :
    State.channel { s with channels := s.channels.map Channel.stage } c = (s.channel c).stage :=
  channel_map s Channel.stage c rfl

/-- `RISE_TS` of a channel changes by a rising edge of that channel alone (R26). -/
theorem ExecEffect.riseTs_eq {s t : State} {i : Instr} {c : Index} (h : ExecEffect i s t) (hne : i ≠ .edgeRise c) :
    (t.channel c).riseTs = (s.channel c).riseTs := by
  obtain ⟨hcfg, _, _, hwritten⟩ := h
  cases hwritten with
  | none heq => rw [channel_congr hcfg heq]
  | staged heq =>
    rw [channel_congr (s := { s with channels := s.channels.map Channel.stage }) hcfg heq, channel_map_stage]
    rfl
  | @rise d heq =>
    have hcd : c ≠ d := fun e => hne (e ▸ rfl)
    rw [channel_congr (s := s.setChannel d _) hcfg heq, channel_setChannel_ne s _ hcd]
  | @fall d heq =>
    have hkept : ({ s.channel d with raw := s.time - (s.channel d).riseTs } : Channel).riseTs =
        (s.channel d).riseTs := rfl
    rw [channel_congr (s := s.setChannel d _) hcfg heq, riseTs_setChannel hkept]
  | mapped hrise _ _ heq => rw [channel_congr (s := s.setChannel _ _) hcfg heq, riseTs_setChannel hrise]

/-- Each channel's staged width is its raw width: what a POLL establishes and only a falling edge can end. -/
def allStaged (s : State) : Prop := ∀ ch ∈ s.channels, ch.staged = ch.raw

/-- An index that is no channel too reads a staged width that is the raw width, as after reset. -/
theorem allStaged.channel {s : State} (h : allStaged s) (c : Index) : (s.channel c).staged = (s.channel c).raw := by
  by_cases hlen : c.toNat < s.channels.length
  · have hmem : s.channel c ∈ s.channels := by simp [State.channel, hlen]
    exact h _ hmem
  · have hdefault : s.channel c = Channel.atReset s.cfg.rawDefault :=
      List.getD_eq_default _ _ (not_lt.mp hlen)
    rw [hdefault]
    rfl

/-- A write of a channel that leaves its staged width its raw width. -/
theorem allStaged_setChannel {s : State} (h : allStaged s) (c : Index) {ch : Channel} (hch : ch.staged = ch.raw) :
    allStaged (s.setChannel c ch) := by
  intro a ha
  rcases List.mem_or_eq_of_mem_set ha with ha | rfl
  · exact h a ha
  · exact hch

/-- POLL's copy makes each staged width the raw width (R83). -/
theorem allStaged_map_stage (s : State) : allStaged { s with channels := s.channels.map Channel.stage } := by
  intro a ha
  obtain ⟨ch, _, rfl⟩ := List.mem_map.mp ha
  rfl

/-- Whether each staged width is the raw width depends on the bank alone. -/
theorem allStaged_congr {s t : State} (h : t.channels = s.channels) (hs : allStaged s) : allStaged t := by
  rw [allStaged, h]
  exact hs

/-- An instruction other than a falling edge leaves each staged width the raw width. -/
theorem ChannelsWritten.keeps_allStaged {s t : State} {i : Instr} (h : ChannelsWritten s t i) (hs : allStaged s)
    (hne : ∀ c, i ≠ .edgeFall c) : allStaged t := by
  cases h with
  | none heq => exact allStaged_congr heq hs
  | staged heq => exact allStaged_congr heq (allStaged_map_stage s)
  | @rise c heq => exact allStaged_congr heq (allStaged_setChannel hs c (hs.channel c))
  | fall heq => exact absurd rfl (hne _)
  | @mapped _ c _ _ hraw hstaged heq =>
    refine allStaged_congr heq (allStaged_setChannel hs c ?_)
    rw [hstaged, hraw, hs.channel c]

/-! ### What one input does -/

/-- All that the block can read an input as, with the input itself: a presented instruction, a refused command word, a
pin at rest, an advance of the clock, or a reset (R50, R60, R79, R139). -/
inductive InputView : Input → Fetched → Prop
  | run (i : Instr) : InputView (present i) (.run i)
  | refuse (w : Word) (r : RefuseReason) : InputView (.event (.command w)) (.refuse r)
  | quiet (c : Index) (b : Bool) : InputView (.event (.pin c b b)) .quiet
  | advance (d : Nat) : InputView (.event (.advance d)) (.advance d)
  | reset (during : List Event) : InputView (.reset during) .reset

theorem inputView (x : Input) : InputView x x.fetch := by
  cases x with
  | reset during => exact .reset during
  | event e =>
    cases e with
    | advance d => exact .advance d
    | pin c before after =>
      match before, after with
      | false, true => exact .run (.edgeRise c)
      | true, false => exact .run (.edgeFall c)
      | false, false => exact .quiet c false
      | true, true => exact .quiet c true
    | command w =>
      cases hd : decode w with
      | error r =>
        rw [fetch_of_decode_error hd]
        exact .refuse w r
      | ok i =>
        rw [fetch_of_decode_ok hd, ← acceptedWordIsItsEncoding w i hd]
        exact .run i

/-- The block performs whatever it reads, and takes no further input while it does (R118, R123). -/
theorem perform_total (s : State) (x : Fetched) : ∃ t, s.perform x = .next t ∧ t.inputs = s.inputs := by
  cases x with
  | run i =>
    obtain ⟨t, ht, heffect⟩ := exec_effect i s
    exact ⟨t, ht, heffect.inputs⟩
  | refuse _ | quiet | advance _ | reset => exact ⟨_, rfl, rfl⟩

/-- Every step completes (R123). -/
theorem step_completes (s : State) : ∃ t, step s = .next t := by
  rcases step_cases s with ⟨x, rest, _, heq⟩ | ⟨x, _, heq⟩ | ⟨_, heq⟩ <;> rw [heq]
  · obtain ⟨t, ht, _⟩ := perform_total (s.consume rest) x.fetch
    exact ⟨t, ht⟩
  · obtain ⟨t, ht, _⟩ := perform_total s.countOffer x.fetch
    exact ⟨t, ht⟩
  · exact ⟨_, rfl⟩

/-- A run of `m` steps and then of `n` more. -/
theorem runN_add {s t : State} {m : Nat} (n : Nat) (h : runN m s = .next t) : runN (m + n) s = runN n t := by
  induction m generalizing s with
  | zero =>
    cases h
    rw [Nat.zero_add]
  | succ m ih =>
    obtain ⟨u, hu⟩ := step_completes s
    rw [runN_succ m hu] at h
    rw [Nat.add_right_comm, runN_succ _ hu, ih h]

/-- A step on a listed input takes it and performs it. -/
theorem step_listed {s : State} {x : Input} {rest : List Input} (hs : s.inputs = x :: rest) :
    ∃ t, step s = .next t ∧ t.inputs = rest ∧ (s.consume rest).perform x.fetch = .next t := by
  obtain ⟨t, ht, hinputs⟩ := perform_total (s.consume rest) x.fetch
  exact ⟨t, (step_cons hs).trans ht, hinputs, ht⟩

/-- No instruction adds to the sum of the advances. -/
theorem counts_present (i : Instr) (xs : List Input) : counts (present i :: xs) = counts xs := by
  cases i <;> rfl

/-- An input that is not a reset keeps the configuration and the number of channels, and only an advance moves `TIME`
(R26). -/
theorem perform_frame {s t : State} {x : Input} (hx : isNotReset x = true) (h : s.perform x.fetch = .next t) :
    t.cfg = s.cfg ∧ t.channels.length = s.channels.length ∧ t.time = s.time + BitVec.ofNat 32 (counts [x]) := by
  have hv := inputView x
  generalize x.fetch = f at h hv
  cases hv with
  | run i =>
    obtain ⟨hcfg, htime, _, hwritten⟩ := execEffect_of_exec h
    exact ⟨hcfg, hwritten.length_eq, by simp [htime, counts_present, counts]⟩
  | refuse _ _ | quiet _ _ =>
    cases h
    exact ⟨rfl, rfl, (BitVec.add_zero _).symm⟩
  | advance d =>
    cases h
    exact ⟨rfl, rfl, rfl⟩
  | reset _ => cases hx

/-- An input that is neither a reset nor a rising edge of the channel keeps the channel's `RISE_TS` (R26). -/
theorem perform_riseTs {s t : State} {x : Input} {c : Index} (hx : isNotReset x = true)
    (hne : x ≠ present (.edgeRise c)) (h : s.perform x.fetch = .next t) :
    (t.channel c).riseTs = (s.channel c).riseTs := by
  have hv := inputView x
  generalize x.fetch = f at h hv
  cases hv with
  | run i => exact (execEffect_of_exec h).riseTs_eq fun e => hne (congrArg present e)
  | refuse _ _ | quiet _ _ | advance _ =>
    cases h
    rfl
  | reset _ => cases hx

/-- An input that is no falling edge, a reset too, leaves each staged width the raw width. -/
theorem perform_allStaged {s t : State} {x : Input} (hne : ∀ c, x ≠ present (.edgeFall c))
    (h : s.perform x.fetch = .next t) (hs : allStaged s) : allStaged t := by
  have hv := inputView x
  generalize x.fetch = f at h hv
  cases hv with
  | run i => exact (execEffect_of_exec h).channels.keeps_allStaged hs fun c e => hne c (congrArg present e)
  | refuse _ _ | quiet _ _ | advance _ =>
    cases h
    exact hs
  | reset _ =>
    cases h
    intro ch hch
    rw [List.eq_of_mem_replicate hch]
    rfl

/-! ### What a sequence of inputs does -/

/-- The block performs the inputs `xs` in order and comes from `s` to `t`, whatever else is listed meanwhile: the part
that a run over a list of inputs and a stretch of an infinite execution have in common. -/
inductive Performs : List Input → State → State → Prop
  | nil (s : State) : Performs [] s s
  | cons {x : Input} {xs rest : List Input} {s t u : State} (hx : (s.consume rest).perform x.fetch = .next t)
      (hxs : Performs xs t u) : Performs (x :: xs) s u

theorem performs_cons_iff {x : Input} {xs : List Input} {s u : State} :
    Performs (x :: xs) s u ↔ ∃ rest t, (s.consume rest).perform x.fetch = .next t ∧ Performs xs t u :=
  ⟨fun h => by cases h with | cons hx hxs => exact ⟨_, _, hx, hxs⟩, fun ⟨_, _, hx, hxs⟩ => .cons hx hxs⟩

theorem performs_append_iff {xs ys : List Input} {s u : State} :
    Performs (xs ++ ys) s u ↔ ∃ t, Performs xs s t ∧ Performs ys t u := by
  constructor
  · intro h
    induction xs generalizing s with
    | nil => exact ⟨s, .nil s, h⟩
    | cons x xs ih =>
      obtain ⟨_, r, hx, hxs⟩ := performs_cons_iff.mp h
      obtain ⟨t, hleft, hright⟩ := ih hxs
      exact ⟨t, .cons hx hleft, hright⟩
  · rintro ⟨t, hleft, hright⟩
    induction hleft with
    | nil s => exact hright
    | cons hx _ ih => exact .cons hx (ih hright)

/-- A run over the listed inputs performs them. -/
theorem runN_performs {xs rest : List Input} {s : State} (hs : s.inputs = xs ++ rest) :
    ∃ t, runN xs.length s = .next t ∧ t.inputs = rest ∧ Performs xs s t := by
  induction xs generalizing s with
  | nil => exact ⟨s, runN_zero s, hs, .nil s⟩
  | cons x xs ih =>
    obtain ⟨t, hstep, hinputs, hx⟩ := step_listed hs
    obtain ⟨u, hrun, hrest, hxs⟩ := ih hinputs
    exact ⟨u, (runN_succ xs.length hstep).trans hrun, hrest, .cons hx hxs⟩

/-- The sum of the advances, the first input's apart. -/
theorem counts_cons (x : Input) (xs : List Input) : counts (x :: xs) = counts [x] + counts xs := by
  cases x with
  | reset _ => exact (Nat.zero_add _).symm
  | event e =>
    cases e with
    | command _ | pin _ _ _ => exact (Nat.zero_add _).symm
    | advance d => rfl

/-- Without a reset the configuration and the number of channels stay, and `TIME` moves by the sum of the advances. -/
theorem Performs.frame {xs : List Input} {s t : State} (h : Performs xs s t) (hxs : ∀ x ∈ xs, isNotReset x = true) :
    t.cfg = s.cfg ∧ t.channels.length = s.channels.length ∧ t.time = s.time + BitVec.ofNat 32 (counts xs) := by
  induction h with
  | nil s => exact ⟨rfl, rfl, (BitVec.add_zero _).symm⟩
  | @cons x xs _ _ _ _ hx _ ih =>
    obtain ⟨hnow, hlater⟩ := List.forall_mem_cons.mp hxs
    obtain ⟨hcfg, hlen, htime⟩ := perform_frame hnow hx
    obtain ⟨hcfg', hlen', htime'⟩ := ih hlater
    refine ⟨hcfg'.trans hcfg, hlen'.trans hlen, ?_⟩
    rw [htime', htime, counts_cons x xs, BitVec.ofNat_add, BitVec.add_assoc, consume_time]

/-- With no reset and no rising edge of the channel its `RISE_TS` stays. -/
theorem Performs.riseTs_eq {xs : List Input} {s t : State} {c : Index} (h : Performs xs s t)
    (hxs : ∀ x ∈ xs, isNotReset x = true) (hne : ∀ x ∈ xs, x ≠ present (.edgeRise c)) :
    (t.channel c).riseTs = (s.channel c).riseTs := by
  induction h with
  | nil s => rfl
  | @cons _ _ rest s _ _ hx _ ih =>
    obtain ⟨hnow, hlater⟩ := List.forall_mem_cons.mp hxs
    obtain ⟨hne, hne'⟩ := List.forall_mem_cons.mp hne
    exact (ih hlater hne').trans (perform_riseTs (s := s.consume rest) hnow hne hx)

/-- With no falling edge each staged width stays the raw width, a reset included. -/
theorem Performs.keeps_allStaged {xs : List Input} {s t : State} (h : Performs xs s t)
    (hne : ∀ x ∈ xs, ∀ c, x ≠ present (.edgeFall c)) (hs : allStaged s) : allStaged t := by
  induction h with
  | nil s => exact hs
  | cons hx _ ih =>
    obtain ⟨hne, hne'⟩ := List.forall_mem_cons.mp hne
    exact ih hne' (perform_allStaged hne hx hs)

/-- What performing the input of one instruction is. -/
theorem performs_present {i : Instr} {s t : State} (h : Performs [present i] s t) :
    ∃ rest, exec i (s.consume rest) = .next t := by
  obtain ⟨rest, u, hx, hnil⟩ := performs_cons_iff.mp h
  cases hnil
  rw [present, encodedInstructionIsFetchedBack] at hx
  exact ⟨rest, hx⟩

/-! ### POLL (R83) -/

/-- A POLL stages every channel and responds `(0, 0)` (R83). -/
theorem exec_poll (s : State) :
    exec .poll s = .next (State.respond { s with channels := s.channels.map Channel.stage } 0#32) := rfl

/-- The copy of a channel whose staged width is its raw width is the channel. -/
theorem Channel.stage_eq_self {ch : Channel} (h : ch.staged = ch.raw) : ch.stage = ch := by
  cases ch
  cases h
  rfl

/-- A POLL of a bank that is staged already changes no register. -/
theorem exec_poll_of_allStaged {s : State} (h : allStaged s) : exec .poll s = .next (s.respond 0#32) := by
  have hbank : s.channels.map Channel.stage = s.channels :=
    (List.map_congr_left fun ch hch => Channel.stage_eq_self (h ch hch)).trans s.channels.map_id
  rw [exec_poll, hbank]

/-- A word of opcode POLL has no must-be-zero bit set when it is POLL's one word (R83). -/
theorem zeroMask_poll_iff {w : Word} (h : opField w = 0x20#8) : w &&& Format.zeroMask .n = 0#32 ↔ w = 0x20000000#32 :=
  ⟨fun hmbz => (mkWord_of_format_n h.symm hmbz).symm, fun hw => hw ▸ rfl⟩

/-- Only the one word of POLL decodes to it; any other word of its opcode has a must-be-zero bit set (R83). -/
theorem decode_of_opField_poll {w : Word} (h : opField w = 0x20#8) :
    decode w = if w = 0x20000000#32 then .ok .poll else .error .mbz := by
  rw [decode_of_opField .poll h]
  exact if_congr (zeroMask_poll_iff h) rfl rfl

/-- After a POLL and inputs without a falling edge each staged width is the raw width. -/
theorem Performs.allStaged_of_poll {mid : List Input} {s t : State} (h : Performs (present .poll :: mid) s t)
    (hmid : ∀ x ∈ mid, ∀ c, x ≠ present (.edgeFall c)) : allStaged t := by
  obtain ⟨u, hpoll, hrest⟩ := performs_append_iff (xs := [present .poll]).mp h
  obtain ⟨rest, hexec⟩ := performs_present hpoll
  cases hexec
  exact hrest.keeps_allStaged hmid (allStaged_map_stage (s.consume rest))

/-- Settles O24: the copy by `channel_map_stage`; the second POLL finds the bank that the first one staged. -/
theorem pollStagesEveryChannel : Obligations.PollStagesEveryChannel := by
  unfold Obligations.PollStagesEveryChannel
  refine ⟨fun w => decode_of_opField_poll, fun s => ?copies, fun s h => ?staged, fun s mid rest hs hmid => ?repeated⟩
  case copies =>
    exact ⟨_, exec_poll s, channel_map_stage s, List.length_map _, rfl, rfl, rfl, rfl, rfl, rfl, rfl⟩
  case staged => exact ⟨_, exec_poll_of_allStaged h, ⟨rfl, rfl, rfl, rfl⟩, rfl⟩
  case repeated =>
    obtain ⟨t, hrun, hinputs, hperf⟩ := runN_performs (xs := present .poll :: mid) hs
    have hstaged : allStaged (t.consume rest) := hperf.allStaged_of_poll hmid
    have hstep : step t = .next ((t.consume rest).respond 0#32) := by
      rw [step_cons hinputs, present, encodedInstructionIsFetchedBack]
      exact exec_poll_of_allStaged hstaged
    exact ⟨t, _, hrun, (runN_add 1 hrun).trans (runN_one hstep), ⟨rfl, rfl, rfl, rfl⟩, rfl, rfl⟩

/-! ### Repeated edges (R88) -/

/-- The channel is present and its registers are in the bank, so its edges are recorded. -/
def captures (c : Index) (s : State) : Prop := s.cfg.present c = true ∧ c.toNat < s.channels.length

theorem captures_of_banksOk {s : State} {c : Index} (hb : s.banksOk) (hp : s.cfg.present c = true) : captures c s := by
  obtain ⟨_, hlen, _⟩ := hb
  exact ⟨hp, hlen.symm ▸ Config.lt_of_present hp⟩

/-- Without a reset a channel whose edges are recorded stays one. -/
theorem Performs.keeps_captures {xs : List Input} {s t : State} {c : Index} (h : Performs xs s t)
    (hxs : ∀ x ∈ xs, isNotReset x = true) (hs : captures c s) : captures c t := by
  obtain ⟨hpresent, hlen⟩ := hs
  obtain ⟨hcfg, hlen', _⟩ := h.frame hxs
  exact ⟨hcfg ▸ hpresent, hlen' ▸ hlen⟩

/-- A rising edge records `TIME`, which stays (R80). -/
theorem Performs.rise {s t : State} {c : Index} (h : Performs [present (.edgeRise c)] s t) (hs : captures c s) :
    t.time = s.time ∧ (t.channel c).riseTs = s.time := by
  obtain ⟨hpresent, hlen⟩ := hs
  obtain ⟨rest, hexec⟩ := performs_present h
  rw [exec_edgeRise_of_present (s := s.consume rest) hpresent] at hexec
  cases hexec
  rw [channel_setChannel_self (s.consume rest) c _ hlen]
  exact ⟨rfl, rfl⟩

/-- A falling edge stores the time since `RISE_TS` (R81). -/
theorem Performs.fall {s t : State} {c : Index} (h : Performs [present (.edgeFall c)] s t) (hs : captures c s) :
    (t.channel c).raw = s.time - (s.channel c).riseTs := by
  obtain ⟨hpresent, hlen⟩ := hs
  obtain ⟨rest, hexec⟩ := performs_present h
  rw [exec_edgeFall_of_present (s := s.consume rest) hpresent] at hexec
  cases hexec
  rw [channel_setChannel_self (s.consume rest) c _ hlen]
  rfl

/-- A falling edge with no rising edge before it stores the time since the `RISE_TS` of the start (R87). -/
theorem Performs.raw_of_no_rise {mid : List Input} {s t : State} {c : Index}
    (h : Performs (mid ++ [present (.edgeFall c)]) s t) (hs : captures c s)
    (hmid : ∀ x ∈ mid, isNotReset x = true) (hne : ∀ x ∈ mid, x ≠ present (.edgeRise c)) :
    (t.channel c).raw = s.time + BitVec.ofNat 32 (counts mid) - (s.channel c).riseTs := by
  obtain ⟨u, hbefore, hfall⟩ := performs_append_iff.mp h
  obtain ⟨_, _, htime⟩ := hbefore.frame hmid
  rw [hfall.fall (hbefore.keeps_captures hmid hs), htime, hbefore.riseTs_eq hmid hne]

/-- A falling edge stores the sum of the advances since the latest rising edge, modulo 2^32 (R85, R88). -/
theorem Performs.raw_of_rise {mid : List Input} {s t : State} {c : Index}
    (h : Performs (present (.edgeRise c) :: (mid ++ [present (.edgeFall c)])) s t) (hs : captures c s)
    (hmid : ∀ x ∈ mid, isNotReset x = true) (hne : ∀ x ∈ mid, x ≠ present (.edgeRise c)) :
    (t.channel c).raw = BitVec.ofNat 32 (counts mid) := by
  obtain ⟨u, hrise, hrest⟩ := performs_append_iff (xs := [present (.edgeRise c)]).mp h
  obtain ⟨htime, hts⟩ := hrise.rise hs
  have hu := hrise.keeps_captures (List.forall_mem_singleton.mpr rfl) hs
  rw [hrest.raw_of_no_rise hu hmid hne, htime, hts, BitVec.add_comm, BitVec.add_sub_cancel]

/-- The window that ends where it begins is empty. -/
theorem window_self (env : Nat → Input) (i : Nat) : window env i i = [] := by
  rw [window, Nat.sub_self]
  rfl

/-- The last input of a window. -/
theorem window_succ_right (env : Nat → Input) {i j : Nat} (h : i ≤ j) :
    window env i (j + 1) = window env i j ++ [env j] := by
  rw [window, Nat.succ_sub h, List.range_succ, List.map_append, List.map_singleton, Nat.add_sub_cancel' h]
  rfl

/-- The first input of a window. -/
theorem window_eq_cons (env : Nat → Input) {i j : Nat} (h : i < j) :
    window env i j = env i :: window env (i + 1) j := by
  induction j, h using Nat.le_induction with
  | base => rw [window_succ_right env le_rfl, window_self, window_self]; rfl
  | succ j h ih => rw [window_succ_right env (by omega), ih, window_succ_right env h]; rfl

/-- What holds of the inputs at a window's positions holds of every input of the window. -/
theorem forall_mem_window {env : Nat → Input} {i j : Nat} {p : Input → Prop} (h : ∀ k, i ≤ k → k < j → p (env k)) :
    ∀ x ∈ window env i j, p x := by
  intro x hx
  obtain ⟨n, hn, rfl⟩ := List.mem_map.mp hx
  have := List.mem_range.mp hn
  exact h (i + n) (by omega) (by omega)

/-- An infinite execution performs the inputs of each of its windows. -/
theorem performs_window {env : Nat → Input} {σ : Nat → State} (h : isExecution env σ) {i j : Nat} (hij : i ≤ j) :
    Performs (window env i j) (σ i) (σ j) := by
  induction j, hij using Nat.le_induction with
  | base =>
    rw [window_self]
    exact .nil _
  | succ j hij ih =>
    rw [window_succ_right env hij]
    have hstep : ((σ j).consume []).perform (env j).fetch = .next (σ (j + 1)) := h j
    exact performs_append_iff.mpr ⟨_, ih, .cons hstep (.nil _)⟩

/-- Settles O27: in a list of inputs and in an infinite execution alike each FALL is one of the two cases
`Performs.raw_of_rise` and `Performs.raw_of_no_rise`. -/
theorem repeatedEdges : Obligations.RepeatedEdges := by
  unfold Obligations.RepeatedEdges
  refine ⟨fun s c a b rest hb hp => ⟨fun hs => ?riseRiseFall, fun hs => ?riseFallFall⟩,
    fun env σ c hexec hnr hb hp j hfall => ⟨fun i hij hrise hlatest => ?latest, fun hnone => ?noRise⟩⟩
  case riseRiseFall =>
    obtain ⟨t, hrun, hrest, hperf⟩ := runN_performs (xs := [present (.edgeRise c), .event (.advance a)] ++
      present (.edgeRise c) :: ([.event (.advance b)] ++ [present (.edgeFall c)])) hs
    obtain ⟨u, hfirst, hsecond⟩ := performs_append_iff.mp hperf
    have hu : captures c u := hfirst.keeps_captures (by simp [present, isNotReset]) (captures_of_banksOk hb hp)
    exact ⟨t, hrun, hrest, hsecond.raw_of_rise hu (by simp [isNotReset]) (by simp [present, encode])⟩
  case riseFallFall =>
    obtain ⟨t, hrun, hrest, hperf⟩ := runN_performs (xs := present (.edgeRise c) ::
      ([.event (.advance a), present (.edgeFall c), .event (.advance b)] ++ [present (.edgeFall c)])) hs
    exact ⟨t, hrun, hrest, hperf.raw_of_rise (captures_of_banksOk hb hp) (by simp [present, isNotReset])
      (by simp [present, encode])⟩
  case latest =>
    have hbefore := performs_window hexec i.zero_le
    have hi := hbefore.keeps_captures (forall_mem_window fun k _ _ => hnr k) (captures_of_banksOk hb hp)
    have hperf := performs_window hexec (show i ≤ j + 1 by omega)
    rw [window_succ_right env hij.le, window_eq_cons env hij, hrise, hfall] at hperf
    rw [window_eq_cons env hij, hrise, counts_present]
    exact hperf.raw_of_rise hi (forall_mem_window fun k _ _ => hnr k) (forall_mem_window hlatest)
  case noRise =>
    have hperf := performs_window hexec (j + 1).zero_le
    rw [window_succ_right env j.zero_le, hfall] at hperf
    exact hperf.raw_of_no_rise (captures_of_banksOk hb hp) (forall_mem_window fun k _ _ => hnr k)
      (forall_mem_window fun k _ => hnone k)

end Sys2Proof.Machine


/-! ## The calibration mapper (R94 to R108) -/

namespace Sys2Proof.Machine

/-! ### The quotient (R94) -/

/-- The quotient is not negative from the center on. -/
theorem quot_nonneg {raw L C H : Nat} (hCH : C < H) (h : C ≤ raw) : 0 ≤ quot raw L C H := by
  have hnum : (C : Rat) ≤ (min raw H : Nat) := by exact_mod_cast le_min h hCH.le
  have hspan : (C : Rat) ≤ H := by exact_mod_cast hCH.le
  rw [quot_of_ge h]
  exact div_nonneg (mul_nonneg (sub_nonneg.mpr hnum) (by norm_num)) (sub_nonneg.mpr hspan)

/-- The quotient is not positive below the center. -/
theorem quot_nonpos {raw L C H : Nat} (hLC : L < C) (h : raw < C) : quot raw L C H ≤ 0 := by
  have hnum : ((max raw L : Nat) : Rat) ≤ C := by exact_mod_cast max_le h.le hLC.le
  have hspan : (L : Rat) ≤ C := by exact_mod_cast hLC.le
  rw [quot_of_lt h]
  exact div_nonpos_of_nonpos_of_nonneg (mul_nonpos_of_nonpos_of_nonneg (sub_nonpos.mpr hnum) (by norm_num))
    (sub_nonneg.mpr hspan)

/-- The quotient is non-decreasing in the raw width: on each half by the clamped distance, across the center by sign. -/
theorem quot_mono {raw₁ raw₂ L C H : Nat} (hLC : L < C) (hCH : C < H) (h : raw₁ ≤ raw₂) :
    quot raw₁ L C H ≤ quot raw₂ L C H := by
  rcases lt_or_ge raw₂ C with h₂ | h₂
  · have hspan : (0 : Rat) ≤ C - L := sub_nonneg.mpr (by exact_mod_cast hLC.le)
    rw [quot_of_lt (h.trans_lt h₂), quot_of_lt h₂]
    gcongr
  rcases lt_or_ge raw₁ C with h₁ | h₁
  · exact (quot_nonpos hLC h₁).trans (quot_nonneg hCH h₂)
  · have hspan : (0 : Rat) ≤ H - C := sub_nonneg.mpr (by exact_mod_cast hCH.le)
    rw [quot_of_ge h₁, quot_of_ge h₂]
    gcongr

/-- At the center the quotient is 0. -/
theorem quot_center {L C H : Nat} (hCH : C < H) : quot C L C H = 0 := by
  rw [quot_of_ge le_rfl, min_eq_left hCH.le, sub_self, zero_mul, zero_div]

/-- At the low endpoint and below it the quotient is -100. -/
theorem quot_of_le_low {raw L C H : Nat} (hLC : L < C) (h : raw ≤ L) : quot raw L C H = -100 := by
  have hspan : (C : Rat) - L ≠ 0 := sub_ne_zero.mpr (by exact_mod_cast hLC.ne')
  rw [quot_of_lt (h.trans_lt hLC), max_eq_right h, div_eq_iff hspan]
  ring

/-- At the high endpoint and above it the quotient is 100. -/
theorem quot_of_high_le {raw L C H : Nat} (hCH : C < H) (h : H ≤ raw) : quot raw L C H = 100 := by
  have hspan : (H : Rat) - C ≠ 0 := sub_ne_zero.mpr (by exact_mod_cast hCH.ne')
  rw [quot_of_ge (hCH.le.trans h), min_eq_right h, div_eq_iff hspan]
  ring

/-- The quotient lies between its values at the two outer endpoints. -/
theorem quot_bounds {L C H : Nat} (raw : Nat) (hLC : L < C) (hCH : C < H) :
    -100 ≤ quot raw L C H ∧ quot raw L C H ≤ 100 := by
  constructor
  · calc -100 = quot (min raw L) L C H := (quot_of_le_low hLC (min_le_right _ _)).symm
      _ ≤ quot raw L C H := quot_mono hLC hCH (min_le_left _ _)
  · calc quot raw L C H ≤ quot (max raw H) L C H := quot_mono hLC hCH (le_max_left _ _)
      _ = 100 := quot_of_high_le hCH (le_max_right _ _)

/-! ### `normalize` (R96, R105 to R108) -/

/-- `normalize` is the quotient where that is an integer, whatever `NORM_ROUND` (R95). -/
theorem normalizeWidth_of_quot_eq (m : NormRound) {raw L C H : Nat} {n : Int} (h : quot raw L C H = (n : Rat)) :
    normalizeWidth m raw L C H = n := by
  rw [normalizeWidth, h, nrRound_intCast]

/-- `normalize` is non-decreasing in the raw width. -/
theorem normalizeWidth_mono (m : NormRound) {raw₁ raw₂ L C H : Nat} (hLC : L < C) (hCH : C < H) (h : raw₁ ≤ raw₂) :
    normalizeWidth m raw₁ L C H ≤ normalizeWidth m raw₂ L C H :=
  nrRound_mono m (quot_mono hLC hCH h)

/-- `normalize` is 0 at the center. -/
theorem normalizeWidth_center (m : NormRound) {L C H : Nat} (hCH : C < H) : normalizeWidth m C L C H = 0 :=
  normalizeWidth_of_quot_eq m (by exact_mod_cast quot_center hCH)

/-- `normalize` is -100 at the low endpoint and below it. -/
theorem normalizeWidth_of_le_low (m : NormRound) {raw L C H : Nat} (hLC : L < C) (h : raw ≤ L) :
    normalizeWidth m raw L C H = -100 :=
  normalizeWidth_of_quot_eq m (by exact_mod_cast quot_of_le_low hLC h)

/-- `normalize` is 100 at the high endpoint and above it. -/
theorem normalizeWidth_of_high_le (m : NormRound) {raw L C H : Nat} (hCH : C < H) (h : H ≤ raw) :
    normalizeWidth m raw L C H = 100 :=
  normalizeWidth_of_quot_eq m (by exact_mod_cast quot_of_high_le hCH h)

/-- Settles O38: by `normalizeWidth_mono`. -/
theorem normalizeIsMonotone : Obligations.NormalizeIsMonotone := by
  unfold Obligations.NormalizeIsMonotone
  exact fun m _ _ _ _ _ hLC hCH h => normalizeWidth_mono m hLC hCH h

/-- Settles O40: by the quotient's own saturation. -/
theorem normalizeSaturates : Obligations.NormalizeSaturates := by
  unfold Obligations.NormalizeSaturates
  exact fun m _ _ _ _ hLC hCH => ⟨normalizeWidth_of_le_low m hLC, normalizeWidth_of_high_le m hCH⟩

/-- Settles O39: the outer endpoints are the ends at which `normalize` saturates. -/
theorem normalizeExactAtEndpoints : Obligations.NormalizeExactAtEndpoints := by
  unfold Obligations.NormalizeExactAtEndpoints
  exact fun m _ _ _ hLC hCH => ⟨normalizeWidth_center m hCH, normalizeWidth_of_le_low m hLC le_rfl,
    normalizeWidth_of_high_le m hCH le_rfl⟩

/-- Settles O37: `NR` is monotone and fixes -100 and 100, so it keeps the bounds of the quotient. -/
theorem normalizeStaysInRange : Obligations.NormalizeStaysInRange := by
  unfold Obligations.NormalizeStaysInRange
  intro m raw L C H hLC hCH
  obtain ⟨hlow, hhigh⟩ := quot_bounds raw hLC hCH
  refine ⟨⟨hlow, hhigh⟩, ?_, ?_⟩
  · calc -100 = nrRound m ((-100 : Int) : Rat) := (nrRound_intCast m _).symm
      _ ≤ normalizeWidth m raw L C H := nrRound_mono m (by exact_mod_cast hlow)
  · calc normalizeWidth m raw L C H ≤ nrRound m ((100 : Int) : Rat) := nrRound_mono m (by exact_mod_cast hhigh)
      _ = 100 := nrRound_intCast m _

/-! ### `NR` (R95) -/

/-- `trunc` is `floor` on what is not negative. -/
theorem truncInt_of_nonneg {q : Rat} (h : 0 ≤ q) : truncInt q = q.floor := if_pos h

/-- `trunc` is odd. -/
theorem truncInt_neg (q : Rat) : truncInt (-q) = -truncInt q := by
  rcases lt_trichotomy q 0 with h | rfl | h
  · simp only [truncInt, if_pos (neg_nonneg.mpr h.le), if_neg (not_le.mpr h), neg_neg]
  · rfl
  · simp only [truncInt, if_neg (not_le.mpr (neg_neg_of_pos h)), if_pos h.le, neg_neg]

/-- An exact half that is not negative goes up. -/
theorem nearestAway_tie_of_nonneg {q : Rat} (hq : 0 ≤ q) (h : |(nearestAway q : Rat) - q| = 1 / 2) :
    (nearestAway q : Rat) = q + 1 / 2 := by
  have hlt : q + 1 / 2 < (nearestAway q : Rat) + 1 := by
    rw [nearestAway, if_pos hq]
    exact Int.lt_floor_add_one _
  rcases eq_or_eq_neg_of_abs_eq h with h | h <;> linarith

/-- An exact half goes away from zero (R68, R95); a negative one as its opposite does. -/
theorem abs_le_abs_nearestAway_of_tie {q : Rat} (h : |(nearestAway q : Rat) - q| = 1 / 2) :
    |q| ≤ |(nearestAway q : Rat)| := by
  wlog hq : 0 ≤ q generalizing q with hpos
  · have hopp : |(nearestAway (-q) : Rat) - -q| = 1 / 2 := by
      rw [nearestAway_neg, Int.cast_neg, ← neg_sub', abs_neg, h]
    have := hpos hopp (by linarith)
    rwa [nearestAway_neg, Int.cast_neg, abs_neg, abs_neg] at this
  · rw [nearestAway_tie_of_nonneg hq h]
    exact abs_le_abs_of_nonneg hq (by linarith)

/-- `normalize` with the quotient of its half written out (R94, R96). -/
theorem normalizeWidth_eq (m : NormRound) (raw L C H : Nat) :
    normalizeWidth m raw L C H = nrRound m
      (if C ≤ raw then (((min raw H : Nat) : Rat) - (C : Rat)) * 100 / ((H : Rat) - (C : Rat))
       else (((max raw L : Nat) : Rat) - (C : Rat)) * 100 / ((C : Rat) - (L : Rat))) := by
  unfold normalizeWidth
  split_ifs with h
  · rw [quot_of_ge h]
  · rw [quot_of_lt (not_le.mp h)]

/-- Settles O57: each clause is a law of `floor`, `trunc` or `nearest_away`, or of all three. -/
theorem normRoundFunctions : Obligations.NormRoundFunctions := by
  unfold Obligations.NormRoundFunctions
  refine ⟨fun q => ?floor, fun q => ?trunc, fun q => ?nearest, fun m _ _ => nrRound_mono m, nrRound_intCast,
    fun m raw L C H _ _ => normalizeWidth_eq m raw L C H⟩
  case floor => exact ⟨Int.floor_le q, Int.lt_floor_add_one q⟩
  case trunc => exact ⟨truncInt_of_nonneg, truncInt_neg q⟩
  case nearest => exact ⟨nearestAway_spec q, abs_le_abs_nearestAway_of_tie, nearestAway_neg q⟩

end Sys2Proof.Machine

namespace Sys2Proof

/-! ### Words with an endpoint selector (R52, R53) -/

/-- Where a selector is read, the instruction is that of the endpoint it names. -/
theorem withSelector_of_sel {w : Word} {k : Endpoint} (mk : Endpoint → Instr) (h : selField w = k.sel) :
    withSelector w mk = .ok (mk k) := by
  simp only [withSelector, h, Endpoint.ofSel_sel]

/-- Where a selector is read, 3 is refused. -/
theorem withSelector_of_three {w : Word} (mk : Endpoint → Instr) (h : selField w = 3#2) :
    withSelector w mk = .error .selector := by
  simp only [withSelector, Endpoint.ofSel_eq_none.mpr h]

/-- The decoder on a word of an opcode with a selector: a must-be-zero bit or the selector 3 is refused, any other word
is the instruction on the endpoint that the selector names. -/
theorem decode_of_selector_opField {w : Word} {o : Opcode} {mk : Endpoint → Instr} (h : opField w = o.bits)
    (hop : o.operands w = withSelector w mk) :
    (w &&& o.format.zeroMask ≠ 0#32 ∨ selField w = 3#2 → ∃ r, decode w = .error r) ∧
    ∀ k : Endpoint, w &&& o.format.zeroMask = 0#32 → selField w = k.sel → decode w = .ok (mk k) := by
  rw [decode_of_opField o h, hop]
  constructor
  case left =>
    intro hbad
    by_cases hz : w &&& o.format.zeroMask = 0#32
    · exact ⟨_, (if_pos hz).trans (withSelector_of_three mk (hbad.resolve_left (absurd hz)))⟩
    · exact ⟨_, if_neg hz⟩
  case right =>
    intro k hz hk
    rw [if_pos hz, withSelector_of_sel mk hk]

end Sys2Proof

namespace Sys2Proof.Machine

/-! ### The meanings of RDNV, LDEP, WREP and RDEP (R99 to R102) -/

/-- RDNV of a channel (R99). -/
theorem exec_rdnv_of_lt {s : State} {c : Index} (h : c.toNat < s.cfg.nch) :
    exec (.rdnv c) s = .next (s.respond ((s.channel c).nval.signExtend 32)) :=
  congrArg _ (onChannel_of_lt s _ h)

/-- LDEP of a channel (R100). -/
theorem exec_ldep_of_lt {s : State} {c : Index} (k : Endpoint) (u : Half) (h : c.toNat < s.cfg.nch) :
    exec (.ldep c k u) s = .next (s.storeEndpoint c k (loadedEndpoint k u)) :=
  congrArg _ (onChannel_of_lt s _ h)

/-- WREP of a channel (R101). -/
theorem exec_wrep_of_lt {s : State} {c : Index} (k : Endpoint) (u : Half) (h : c.toNat < s.cfg.nch) :
    exec (.wrep c k u) s = .next (s.storeEndpoint c k u) :=
  congrArg _ (onChannel_of_lt s _ h)

/-- RDEP of a channel (R102). -/
theorem exec_rdep_of_lt {s : State} {c : Index} (k : Endpoint) (h : c.toNat < s.cfg.nch) :
    exec (.rdep c k) s = .next (s.respond (((s.channel c).endpoint k).setWidth 32)) :=
  congrArg _ (onChannel_of_lt s _ h)

/-- A channel reads as it was last written, in a state with its whole bank. -/
theorem channel_setChannel_of_lt {s : State} {c : Index} (hb : s.banksOk) (h : c.toNat < s.cfg.nch) (ch : Channel) :
    (s.setChannel c ch).channel c = ch := by
  obtain ⟨_, hlen, _⟩ := hb
  exact channel_setChannel_self s c ch (hlen.symm ▸ h)

/-- Storing an endpoint writes that endpoint of its channel. -/
theorem channel_storeEndpoint {s : State} {c : Index} (hb : s.banksOk) (h : c.toNat < s.cfg.nch) (k : Endpoint)
    (v : Half) : (s.storeEndpoint c k v).channel c = (s.channel c).setEndpoint k v :=
  channel_setChannel_of_lt hb h _

/-- Storing an endpoint changes no register of another channel. -/
theorem sameButChannel_storeEndpoint (s : State) (c : Index) (k : Endpoint) (v : Half) :
    sameButChannel c s (s.storeEndpoint c k v) :=
  sameButChannel_setChannel s c _

/-- Storing an endpoint responds what it stores. -/
theorem respondedWith_storeEndpoint (s : State) (c : Index) (k : Endpoint) (v : Half) :
    respondedWith [⟨false, v.setWidth 32⟩] s (s.storeEndpoint c k v) := rfl

/-- Storing an endpoint takes nothing of what is still to be presented. -/
theorem sameInputs_storeEndpoint (s : State) (c : Index) (k : Endpoint) (v : Half) :
    sameInputs s (s.storeEndpoint c k v) := ⟨rfl, rfl, rfl⟩

/-- LDEP's value for an operand within the bounds (R100, R103). -/
theorem loadedEndpoint_of_valid (k : Endpoint) {u : Half} (h : 500 ≤ u.toNat ∧ u.toNat ≤ 2500) :
    loadedEndpoint k u = u := if_pos ((validEndpoint_iff u).mpr h)

/-- LDEP's value for an operand out of bounds (R100, R103). -/
theorem loadedEndpoint_of_not_valid (k : Endpoint) {u : Half} (h : ¬(500 ≤ u.toNat ∧ u.toNat ≤ 2500)) :
    loadedEndpoint k u = epDefault k := if_neg fun hv => h ((validEndpoint_iff u).mp hv)

/-- Each endpoint's own default (R10). -/
theorem epDefault_spec (k : Endpoint) : (k = .low → epDefault k = 1000#16) ∧
    (k = .center → epDefault k = 1500#16) ∧ (k = .high → epDefault k = 2000#16) := by
  refine ⟨?_, ?_, ?_⟩ <;> (rintro rfl; rfl)

/-! ### The obligations on RDNV, LDEP, WREP and RDEP -/

/-- Settles O32: by `exec_rdnv_of_lt`; sign extension keeps the signed value. -/
theorem rdnvReadsStoredValue : Obligations.RdnvReadsStoredValue := by
  unfold Obligations.RdnvReadsStoredValue
  refine ⟨fun w hw => decode_of_opField .rdnv hw, fun s c => ⟨fun h => ?read, fun h => ?refused⟩⟩
  case read =>
    exact ⟨_, _, exec_rdnv_of_lt h, BitVec.toInt_signExtend_of_le (by norm_num), rfl, ⟨rfl, rfl, rfl, rfl⟩, rfl, rfl,
      rfl⟩
  case refused => exact exec_refused_of_channel_ge rfl rfl h

/-- Settles O33: the store is `storeEndpoint`'s, its value `loadedEndpoint`'s on either side of the bounds. -/
theorem ldepStoresOperandOrDefault : Obligations.LdepStoresOperandOrDefault := by
  unfold Obligations.LdepStoresOperandOrDefault
  refine ⟨fun w hw => decode_of_selector_opField (o := .ldep) hw rfl,
    fun s c k u => ⟨fun hb h => ?stored, fun h => ?refused⟩⟩
  case stored =>
    refine ⟨_, _, exec_ldep_of_lt k u h, loadedEndpoint_of_valid k, fun hu => ?_, channel_storeEndpoint hb h k _,
      sameButChannel_storeEndpoint s c k _, respondedWith_storeEndpoint s c k _, sameInputs_storeEndpoint s c k _⟩
    rw [loadedEndpoint_of_not_valid k hu]
    exact epDefault_spec k
  case refused => exact exec_refused_of_channel_ge rfl rfl h

/-- Settles O34: the store is `storeEndpoint`'s, the endpoints read after it by `Channel.endpoint_setEndpoint`. -/
theorem wrepStoresOperand : Obligations.WrepStoresOperand := by
  unfold Obligations.WrepStoresOperand
  refine ⟨fun w hw => decode_of_selector_opField (o := .wrep) hw rfl,
    fun s c k u => ⟨fun hb h => ?stored, fun h => ?refused⟩⟩
  case stored =>
    have hread := channel_storeEndpoint hb h k u
    refine ⟨_, exec_wrep_of_lt k u h, hread, ?_, fun j hj => ?_, sameButChannel_storeEndpoint s c k u,
      respondedWith_storeEndpoint s c k u, sameInputs_storeEndpoint s c k u⟩
    · rw [hread, Channel.endpoint_setEndpoint, if_pos rfl]
    · rw [hread, Channel.endpoint_setEndpoint, if_neg hj]
  case refused => exact exec_refused_of_channel_ge rfl rfl h

/-- Settles O35: by `exec_rdep_of_lt`. -/
theorem rdepReadsEndpoint : Obligations.RdepReadsEndpoint := by
  unfold Obligations.RdepReadsEndpoint
  refine ⟨fun w hw => decode_of_selector_opField (o := .rdep) hw rfl,
    fun s c k => ⟨fun h => ?read, fun h => ?refused⟩⟩
  case read => exact ⟨_, exec_rdep_of_lt k h, rfl, ⟨rfl, rfl, rfl, rfl⟩, rfl, rfl, rfl⟩
  case refused => exact exec_refused_of_channel_ge rfl rfl h

end Sys2Proof.Machine


/-! ## The system family and refusal (R111, R113) -/

namespace Sys2Proof

/-! ### What a refusal depends on (R113) -/

/-- The index tests read no more of a configuration than `NCH` and `NFILT` (R34). -/
theorem IndexSpace.admits_congr {k k' : Config} (hch : k.nch = k'.nch) (hfilt : k.nfilt = k'.nfilt) (idx : Index)
    (space : IndexSpace) : space.admits k idx = space.admits k' idx := by
  cases space with
  | none => rfl
  | filter => simp only [IndexSpace.admits, filterIndexOk, hfilt]
  | channel => simp only [IndexSpace.admits, channelIndexOk, hch]

/-- R50's procedure reads no more of a configuration than `NCH` and `NFILT`: the tests before and after the index test
are of the word alone (R113). -/
theorem refusal_congr {k k' : Config} (hch : k.nch = k'.nch) (hfilt : k.nfilt = k'.nfilt) (w : Word) :
    refusal k w = refusal k' w := by
  cases hrow : opcodeMap.find? fun r => r.op == opField w with
  | none => simp only [refusal, hrow]
  | some r => rw [refusal_of_row k hrow, refusal_of_row k' hrow, IndexSpace.admits_congr hch hfilt]

/-! ### Words without operands (R53) -/

/-- An opcode's value followed by zeros has no must-be-zero bit of format N set (R53). -/
theorem zeroMask_n_mkWord (op : BitVec 8) : mkWord op 0#4 0#2 0#16 &&& Format.zeroMask .n = 0#32 :=
  (zeroMask_n _).2 ⟨mbzField_mkWord .., idxField_mkWord .., selField_mkWord .., immField_mkWord ..⟩

/-- An opcode of format N has one word, its value followed by zeros; any other word of the opcode has a must-be-zero bit
set (R53, R56). -/
theorem decode_of_format_n {w : Word} {o : Opcode} (h : opField w = o.bits) (hf : o.format = .n) :
    decode w = if w = mkWord o.bits 0#4 0#2 0#16 then o.operands w else .error .mbz := by
  have hmbz : w &&& Format.zeroMask .n = 0#32 ↔ w = mkWord o.bits 0#4 0#2 0#16 :=
    ⟨fun hz => (mkWord_of_format_n h.symm hz).symm, fun hw => hw ▸ zeroMask_n_mkWord o.bits⟩
  rw [decode_of_opField o h, hf]
  exact if_congr hmbz rfl rfl

end Sys2Proof

namespace Sys2Proof.Machine

/-- RDTIME responds `TIME` (R111). -/
theorem exec_rdtime (s : State) : exec .rdtime s = .next (s.respond s.time) := rfl

/-! ### The obligations on refusal and on RDTIME -/

/-- Settles O9: the step by `step_of_refusal`, what the refusal depends on by `refusal_congr`. -/
theorem refusedWordChangesNothing : Obligations.RefusedWordChangesNothing := by
  unfold Obligations.RefusedWordChangesNothing
  intro s w rest r hs hr
  refine ⟨⟨_, step_of_refusal hs hr, refusedTo_refuse _⟩, fun k hch hfilt => ?depends⟩
  case depends => rw [refusal_congr hch hfilt, hr]

/-- Settles O55: the one word by `decode_of_format_n`, its meaning by `exec_rdtime`. -/
theorem rdtimeReadsTime : Obligations.RdtimeReadsTime := by
  unfold Obligations.RdtimeReadsTime
  refine ⟨fun w hw => decode_of_format_n (o := .rdtime) hw rfl, fun s => ?read⟩
  case read => exact ⟨_, exec_rdtime s, rfl, ⟨rfl, rfl, rfl, rfl⟩, rfl, rfl, rfl⟩

end Sys2Proof.Machine

/-! ## The RESET step (R29, R139, R140) -/

namespace Sys2Proof.Machine

/-- A listed RESET is taken and performed; what was presented while `rst` was asserted does not enter the state (R139,
R140). -/
theorem step_of_reset {s : State} {during : List Event} {rest : List Input} (hs : s.inputs = .reset during :: rest) :
    step s = .next (s.consume rest).doReset :=
  step_cons hs

/-- Settles O17: the step by `step_of_reset`, each register by what RESET leaves in it, the channels' values by
`Channel.atReset_eq`. -/
theorem resetRestoresEveryRegister : Obligations.ResetRestoresEveryRegister := by
  unfold Obligations.ResetRestoresEveryRegister
  intro s during rest hs
  refine ⟨(s.consume rest).doReset, step_of_reset hs, ?cfg, doReset_time _, ?channels, ?avg, ?inputs, ?responses⟩
  case cfg => rw [doReset_cfg, consume_cfg]
  case channels => rw [doReset_channels, consume_cfg, Channel.atReset_eq]
  case avg => rw [doReset_avg, consume_cfg]
  case inputs => rw [doReset_inputs, consume_inputs]
  case responses => rw [doReset_responses, consume_responses]

end Sys2Proof.Machine


/-! ## Boundedness and convergence of the filter (R73 to R76) -/

namespace Sys2Proof.Machine

/-! ### The hull of a step (R73) -/

/-- `rnd` keeps integer bounds of up to 24 bits: it is non-decreasing and fixes them. -/
theorem rnd_between (fmt : FiltFmt) {q : Rat} {m M : Int} (hm : |m| ≤ 2 ^ 24) (hM : |M| ≤ 2 ^ 24)
    (hlow : (m : Rat) ≤ q) (hhigh : q ≤ (M : Rat)) : (m : Rat) ≤ rnd fmt q ∧ rnd fmt q ≤ (M : Rat) := by
  constructor
  · calc (m : Rat) = rnd fmt m := (rnd_intCast_of_le fmt hm).symm
      _ ≤ rnd fmt q := rnd_mono fmt hlow
  · calc rnd fmt q ≤ rnd fmt M := rnd_mono fmt hhigh
      _ = (M : Rat) := rnd_intCast_of_le fmt hM

/-- `round_int` keeps integer bounds. -/
theorem roundInt_between (t : RoundTie) {q : Rat} {m M : Int} (hlow : (m : Rat) ≤ q) (hhigh : q ≤ (M : Rat)) :
    m ≤ roundInt t q ∧ roundInt t q ≤ M := by
  have hmono : ∀ {a b : Rat}, a ≤ b → roundInt t a ≤ roundInt t b := by
    cases t with
    | away => exact nearestAway_mono
    | even => exact nearestEven_mono
  constructor
  · calc m = roundInt t m := (roundInt_intCast t m).symm
      _ ≤ roundInt t q := hmono hlow
  · calc roundInt t q ≤ roundInt t M := hmono hhigh
      _ = M := roundInt_intCast t M

/-- A multiple of an operand by at most 2^8 is an integer of at most 23 bits. -/
theorem abs_operand_mul_le {m : Int} {n : Nat} (hlow : -32768 ≤ m) (hhigh : m ≤ 32767) (hn : n ≤ 2 ^ 8) :
    |m * (n : Int)| ≤ 2 ^ 23 := by
  have hm : |m| ≤ 2 ^ 15 := abs_le.mpr ⟨by omega, by omega⟩
  calc |m * (n : Int)| = |m| * (n : Int) := by rw [abs_mul, Nat.abs_cast]
    _ ≤ 2 ^ 15 * 2 ^ 8 := by gcongr; exact_mod_cast hn
    _ = 2 ^ 23 := by norm_num

/-- Every format fixes the weights and the divisors (R10, R67). -/
theorem rnd_weight (fmt : FiltFmt) {w : Nat} (hw : w ≤ 255) :
    rnd fmt (w : Rat) = (w : Rat) ∧ rnd fmt ((w : Rat) + 1) = (w : Rat) + 1 := by
  have hfix : ∀ n : Nat, n ≤ 256 → rnd fmt (n : Rat) = (n : Rat) := fun n hn => by
    exact_mod_cast rnd_intCast_of_le fmt (n := n) (abs_le.mpr ⟨by omega, by omega⟩)
  exact ⟨hfix w (by omega), by exact_mod_cast hfix (w + 1) (by omega)⟩

section Hull

variable {fmt : FiltFmt} {w : Nat} {a : Rat} {x : Half} {m M : Int}

/-- The product of a step, between the bounds' own products (R73). -/
theorem product_between (hw : w ≤ 255) (hm : -32768 ≤ m) (hmM : m ≤ M) (hM : M ≤ 32767) (hma : (m : Rat) ≤ a)
    (haM : a ≤ (M : Rat)) :
    ((m * (w : Int) : Int) : Rat) ≤ rnd fmt (a * rnd fmt (w : Rat)) ∧
      rnd fmt (a * rnd fmt (w : Rat)) ≤ ((M * (w : Int) : Int) : Rat) := by
  have hbm := abs_operand_mul_le (n := w) hm (by omega) (by omega)
  have hbM := abs_operand_mul_le (n := w) (by omega) hM (by omega)
  rw [(rnd_weight fmt hw).1]
  refine rnd_between fmt (by omega) (by omega) ?_ ?_ <;> push_cast <;> gcongr

/-- The sum of a step, between `w + 1` times the bounds (R73). -/
theorem sum_between (hw : w ≤ 255) (hm : -32768 ≤ m) (hM : M ≤ 32767) (hma : (m : Rat) ≤ a)
    (haM : a ≤ (M : Rat)) (hmx : m ≤ x.toInt) (hxM : x.toInt ≤ M) :
    ((m * ((w + 1 : Nat) : Int) : Int) : Rat) ≤
        rnd fmt (rnd fmt (a * rnd fmt (w : Rat)) + rnd fmt (x.toInt : Rat)) ∧
      rnd fmt (rnd fmt (a * rnd fmt (w : Rat)) + rnd fmt (x.toInt : Rat)) ≤
        ((M * ((w + 1 : Nat) : Int) : Int) : Rat) := by
  have hmM := hmx.trans hxM
  obtain ⟨hlow, hhigh⟩ := product_between (fmt := fmt) hw hm hmM hM hma haM
  have hbm := abs_operand_mul_le (n := w + 1) hm (by omega) (by omega)
  have hbM := abs_operand_mul_le (n := w + 1) (by omega) hM (by omega)
  have hmx' : (m : Rat) ≤ (x.toInt : Rat) := by exact_mod_cast hmx
  have hxM' : (x.toInt : Rat) ≤ (M : Rat) := by exact_mod_cast hxM
  push_cast at hlow hhigh
  rw [rnd_operand]
  refine rnd_between fmt (by omega) (by omega) ?_ ?_ <;> push_cast <;> linarith

/-- A step stays in the integer hull of the running value and the sample (R73). -/
theorem filterNext_between (hw : w ≤ 255) (hm : -32768 ≤ m) (hM : M ≤ 32767) (hma : (m : Rat) ≤ a)
    (haM : a ≤ (M : Rat)) (hmx : m ≤ x.toInt) (hxM : x.toInt ≤ M) :
    (m : Rat) ≤ filterNext fmt w a x.toInt ∧ filterNext fmt w a x.toInt ≤ (M : Rat) := by
  have hmM := hmx.trans hxM
  obtain ⟨hlow, hhigh⟩ := sum_between (fmt := fmt) hw hm hM hma haM hmx hxM
  have hpos : (0 : Rat) < (w : Rat) + 1 := by positivity
  push_cast at hlow hhigh
  rw [filterNext_eq, (rnd_weight fmt hw).2]
  exact rnd_between fmt (abs_le.mpr ⟨by omega, by omega⟩) (abs_le.mpr ⟨by omega, by omega⟩)
    ((le_div_iff₀ hpos).mpr hlow) ((div_le_iff₀ hpos).mpr hhigh)

end Hull

/-- A number between two integers of magnitude at most 2^23 has that magnitude itself. -/
theorem abs_le_of_between {q : Rat} {m M : Int} (hm : |m| ≤ 2 ^ 23) (hM : |M| ≤ 2 ^ 23)
    (h : (m : Rat) ≤ q ∧ q ≤ (M : Rat)) : |q| ≤ (2 : Rat) ^ (23 : Nat) := by
  obtain ⟨hlow, hhigh⟩ := h
  have hm' : (-2 ^ 23 : Rat) ≤ m := by exact_mod_cast (abs_le.mp hm).1
  have hM' : (M : Rat) ≤ 2 ^ 23 := by exact_mod_cast (abs_le.mp hM).2
  exact abs_le.mpr ⟨hm'.trans hlow, hhigh.trans hM'⟩

/-- Settles O51: the product, the sum and the quotient each stay between the bounds' own exact results, which are
integers that every format fixes. -/
theorem filterStaysInHull : Obligations.FilterStaysInHull := by
  unfold Obligations.FilterStaysInHull
  intro s f x m M hb hf hm hM hma haM hmx hxM
  have hw := Config.weight_le s.cfg f
  have hmM := hmx.trans hxM
  have hnext := filterNext_between (fmt := s.cfg.filtFmt) hw hm hM hma haM hmx hxM
  have hbound : ∀ n : Nat, n ≤ 2 ^ 8 → |m * (n : Int)| ≤ 2 ^ 23 ∧ |M * (n : Int)| ≤ 2 ^ 23 := fun n hn =>
    ⟨abs_operand_mul_le hm (by omega) hn, abs_operand_mul_le (by omega) hM hn⟩
  refine ⟨_, exec_fstep_of_lt x hf, ?_⟩
  rw [avgAt_setAvg_respond hb hf]
  refine ⟨hnext.1, hnext.2, roundInt_between _ hnext.1 hnext.2, ?product, ?sum⟩
  case product =>
    obtain ⟨hbm, hbM⟩ := hbound (s.cfg.weight f) (by omega)
    exact abs_le_of_between hbm hbM (product_between hw hm hmM hM hma haM)
  case sum =>
    obtain ⟨hbm, hbM⟩ := hbound (s.cfg.weight f + 1) (by omega)
    exact abs_le_of_between hbm hbM (sum_between hw hm hM hma haM hmx hxM)

/-! ### A constant sample (R74 to R76) -/

/-- A filter that stands at its sample stays there: the hull is that one integer (R74). -/
theorem filterNext_fixed (fmt : FiltFmt) {w : Nat} (hw : w ≤ 255) (x : Half) :
    filterNext fmt w (x.toInt : Rat) x.toInt = (x.toInt : Rat) := by
  have hlow := BitVec.le_toInt x
  have hhigh := BitVec.toInt_lt (x := x)
  obtain ⟨hge, hle⟩ := filterNext_between (fmt := fmt) (x := x) hw (by omega) (by omega) le_rfl le_rfl le_rfl le_rfl
  exact le_antisymm hle hge

/-- Settles O52: by `filterNext_fixed`. -/
theorem constantInputIsFixedPoint : Obligations.ConstantInputIsFixedPoint := by
  unfold Obligations.ConstantInputIsFixedPoint
  intro s f x hb hf hx
  have hnext : filterNext s.cfg.filtFmt (s.cfg.weight f) (s.avgAt f) x.toInt = (x.toInt : Rat) := by
    rw [hx]
    exact filterNext_fixed _ (Config.weight_le s.cfg f) x
  refine ⟨_, exec_fstep_of_lt x hf, ?_, ?_⟩
  · rw [avgAt_setAvg_respond hb hf, hnext]
  · rw [hnext, ofInt_roundInt_toInt]
    rfl

/-- Settles O53: the distance after the step by `filterNext_exact_sub`, rearranged. -/
theorem exactStepMovesByFraction : Obligations.ExactStepMovesByFraction := by
  unfold Obligations.ExactStepMovesByFraction
  intro s f x hb hf hfmt
  refine ⟨_, exec_fstep_of_lt x hf, ?_⟩
  have hdist := filterNext_exact_sub (s.cfg.weight f) (s.avgAt f) x.toInt
  have hpos : (s.cfg.weight f : Rat) + 1 ≠ 0 := by positivity
  rw [avgAt_setAvg_respond hb hf, hfmt, sub_eq_iff_eq_add.mp hdist]
  field_simp
  ring

/-- What one presented FSTEP does to a filter that was built (R69). -/
theorem Performs.fstep {s t : State} {f : Index} {x : Half} (h : Performs [present (.fstep f x)] s t)
    (hb : s.banksOk) (hf : f.toNat < s.cfg.nfilt) :
    t.banksOk ∧ t.cfg = s.cfg ∧
      t.avgAt f = filterNext s.cfg.filtFmt (s.cfg.weight f) (s.avgAt f) x.toInt ∧
      t.responses.getLast? = some ⟨false, BitVec.ofInt 32 (roundInt s.cfg.roundTie (t.avgAt f))⟩ := by
  obtain ⟨rest, hexec⟩ := performs_present h
  have hb' := banksOk_consume hb rest
  rw [exec_fstep_of_lt (s := s.consume rest) x hf] at hexec
  cases hexec
  rw [avgAt_setAvg_respond hb' hf]
  exact ⟨banksOk_respond (banksOk_setAvg hb' _ _) _, rfl, rfl, List.getLast?_concat⟩

/-- `n` presented FSTEPs of a constant iterate the step on the running value (R69, R75). -/
theorem Performs.fsteps {n : Nat} {s t : State} {f : Index} {x : Half}
    (h : Performs (List.replicate n (present (.fstep f x))) s t) (hb : s.banksOk) (hf : f.toNat < s.cfg.nfilt) :
    t.banksOk ∧ t.cfg = s.cfg ∧
      t.avgAt f = filterIterate s.cfg.filtFmt (s.cfg.weight f) x.toInt n (s.avgAt f) := by
  induction n generalizing s with
  | zero =>
    cases h
    exact ⟨hb, rfl, rfl⟩
  | succ n ih =>
    obtain ⟨u, hfirst, hlater⟩ := performs_append_iff (xs := [present (.fstep f x)]).mp h
    obtain ⟨hbu, hcfg, havg, _⟩ := hfirst.fstep hb hf
    obtain ⟨hbt, hcfg', havg'⟩ := ih hlater hbu (hcfg ▸ hf)
    refine ⟨hbt, hcfg'.trans hcfg, ?_⟩
    rw [havg', hcfg, havg, filterIterate_succ]

/-- The last of them responds the rounded running value that it leaves (R69). -/
theorem Performs.fsteps_response {n : Nat} {s t : State} {f : Index} {x : Half}
    (h : Performs (List.replicate n (present (.fstep f x))) s t) (hn : 0 < n) (hb : s.banksOk)
    (hf : f.toNat < s.cfg.nfilt) :
    t.responses.getLast? = some ⟨false, BitVec.ofInt 32 (roundInt s.cfg.roundTie
      (filterIterate s.cfg.filtFmt (s.cfg.weight f) x.toInt n (s.avgAt f)))⟩ := by
  obtain ⟨_, _, havg⟩ := h.fsteps hb hf
  obtain ⟨n, rfl⟩ := Nat.exists_eq_succ_of_ne_zero hn.ne'
  rw [List.replicate_succ'] at h
  obtain ⟨u, hbefore, hlast⟩ := performs_append_iff.mp h
  obtain ⟨hbu, hcfg, _⟩ := hbefore.fsteps hb hf
  obtain ⟨_, _, _, hresp⟩ := hlast.fstep hbu (hcfg ▸ hf)
  rw [hresp, hcfg, havg]

/-- A run over `n` listed FSTEPs of a constant, with what it leaves in the filter and what it last responds. -/
theorem runN_fsteps {n : Nat} {s : State} {f : Index} {x : Half} {rest : List Input} (hb : s.banksOk)
    (hf : f.toNat < s.cfg.nfilt) (hs : s.inputs = List.replicate n (present (.fstep f x)) ++ rest) :
    ∃ t, runN n s = .next t ∧ t.inputs = rest ∧
      t.avgAt f = filterIterate s.cfg.filtFmt (s.cfg.weight f) x.toInt n (s.avgAt f) ∧
      (0 < n → roundInt s.cfg.roundTie
          (filterIterate s.cfg.filtFmt (s.cfg.weight f) x.toInt n (s.avgAt f)) = x.toInt →
        t.responses.getLast? = some ⟨false, x.signExtend 32⟩) := by
  obtain ⟨t, hrun, hrest, hperf⟩ := runN_performs hs
  obtain ⟨_, _, havg⟩ := hperf.fsteps hb hf
  rw [List.length_replicate] at hrun
  refine ⟨t, hrun, hrest, havg, fun hn hround => ?_⟩
  rw [hperf.fsteps_response hn hb hf, hround]
  rfl

/-- Settles O54: the n-th power by `filterIterate_exact_sub`; a value within one half of the constant rounds to it. -/
theorem exactFilterConverges : Obligations.ExactFilterConverges := by
  unfold Obligations.ExactFilterConverges
  intro s f x n rest hb hf hfmt hn hs
  obtain ⟨t, hrun, hrest, havg, hresp⟩ := runN_fsteps hb hf hs
  have hdist := filterIterate_exact_sub (s.cfg.weight f) x.toInt n (s.avgAt f)
  rw [hfmt] at havg hresp
  refine ⟨t, hrun, hrest, havg ▸ hdist, fun hnear => hresp hn (roundInt_of_near _ ?_)⟩
  have hpow : (0 : Rat) ≤ ((s.cfg.weight f : Rat) / ((s.cfg.weight f : Rat) + 1)) ^ n := by positivity
  rwa [hdist, abs_mul, abs_of_nonneg hpow]

/-- Settles O59: `P_CONV` of the filter's own running value, which the type invariant bounds. -/
theorem filterConvergesUnderPConv : Obligations.FilterConvergesUnderPConv := by
  unfold Obligations.FilterConvergesUnderPConv
  intro s f x ⟨hb, havg⟩ hf hconv
  have hlow := BitVec.le_toInt x
  have hhigh := BitVec.toInt_lt (x := x)
  have hmem : s.avgAt f ∈ s.avg := avgAt_mem s f (by obtain ⟨_, _, hlen⟩ := hb; omega)
  obtain ⟨n₀, hn₀⟩ := hconv f (s.avgAt f) x.toInt hf (havg _ hmem) (by omega) (by omega)
  refine ⟨n₀, fun n rest hle hn => ?_⟩
  obtain ⟨t, hrun, hrest, _, hresp⟩ :=
    runN_fsteps (s := s.consume (List.replicate n (present (.fstep f x)) ++ rest)) hb hf rfl
  exact ⟨t, hrun, hrest, hresp hn (hn₀ n hle)⟩

/-! ### A filter that stalls in BINARY32 (R75 (b), log 15) -/

/-- A step is non-decreasing in the running value. -/
theorem filterNext_mono (fmt : FiltFmt) (w : Nat) (v : Int) {a b : Rat} (h : a ≤ b) :
    filterNext fmt w a v ≤ filterNext fmt w b v := by
  have hw : 0 ≤ rnd fmt (w : Rat) := rnd_nonneg fmt (by positivity)
  have hd : 0 ≤ rnd fmt ((w : Rat) + 1) := rnd_nonneg fmt (by positivity)
  simp only [filterNext_eq]
  refine rnd_mono fmt (div_le_div_of_nonneg_right (rnd_mono fmt ?_) hd)
  gcongr
  exact rnd_mono fmt (by gcongr)

/-- What each step of a constant keeps in an interval, the iteration keeps there. -/
theorem filterIterate_between {fmt : FiltFmt} {w : Nat} {v : Int} {l h a : Rat}
    (hkeep : ∀ b, l ≤ b → b ≤ h → l ≤ filterNext fmt w b v ∧ filterNext fmt w b v ≤ h) (n : Nat) (hl : l ≤ a)
    (hh : a ≤ h) : l ≤ filterIterate fmt w v n a ∧ filterIterate fmt w v n a ≤ h := by
  induction n generalizing a with
  | zero => exact ⟨hl, hh⟩
  | succ n ih =>
    obtain ⟨hl', hh'⟩ := hkeep a hl hh
    exact ih hl' hh'

/-- A running value of a BINARY32 filter of weight 252 that an FSTEP of 16580 leaves. -/
theorem filterNext_binary32_stalled : filterNext .binary32 252 (4244329 / 256) 16580 = 4244329 / 256 := by
  decide +kernel

/-- Below that value and from 16579 on an FSTEP of 16580 leads to no value outside: the step is non-decreasing, and it
stays in the integer hull. -/
theorem filterNext_binary32_below_stalled (b : Rat) (hlow : 16579 ≤ b) (hhigh : b ≤ 4244329 / 256) :
    16579 ≤ filterNext .binary32 252 b 16580 ∧ filterNext .binary32 252 b 16580 ≤ 4244329 / 256 := by
  have hx : (16580#16 : Half).toInt = 16580 := by decide
  have hhull := filterNext_between (fmt := .binary32) (w := 252) (a := b) (x := 16580#16) (m := 16579) (M := 16580)
    (by norm_num) (by norm_num) (by norm_num) (by exact_mod_cast hlow) (by push_cast; linarith) (by omega) (by omega)
  rw [hx] at hhull
  refine ⟨by exact_mod_cast hhull.1, ?_⟩
  calc filterNext .binary32 252 b 16580 ≤ filterNext .binary32 252 (4244329 / 256) 16580 :=
        filterNext_mono _ _ _ hhigh
    _ = 4244329 / 256 := filterNext_binary32_stalled

/-- So a filter forced to 16579 responds 16579 to every FSTEP of 16580, under either tie rule. -/
theorem roundInt_filterIterate_stalled (tie : RoundTie) (n : Nat) :
    roundInt tie (filterIterate .binary32 252 16580 n 16579) = 16579 := by
  obtain ⟨hlow, hhigh⟩ := filterIterate_between filterNext_binary32_below_stalled n le_rfl (by norm_num)
  refine roundInt_of_near tie ?_
  rw [abs_lt]
  push_cast
  constructor <;> linarith

/-- A running value can be every integer of the operand range (R28, R73). -/
theorem avgOk_intCast (fmt : FiltFmt) {n : Int} (hlow : -32768 ≤ n) (hhigh : n ≤ 32767) : avgOk fmt (n : Rat) :=
  ⟨⟨n, rnd_intCast_of_le fmt (abs_le.mpr ⟨by omega, by omega⟩)⟩, by exact_mod_cast hlow, by exact_mod_cast hhigh⟩

/-- Settles O60: the iterates stay between 16579 and the stalled value, all of which round to 16579. -/
theorem binary32FilterCanStall : Obligations.Binary32FilterCanStall := by
  unfold Obligations.Binary32FilterCanStall
  refine ⟨roundInt_filterIterate_stalled, fun k f hfmt hf hw hconv => ?_⟩
  obtain ⟨n₀, hn₀⟩ := hconv f ((16579 : Int) : Rat) 16580 hf (avgOk_intCast _ (by norm_num) (by norm_num)) (by norm_num)
    (by norm_num)
  have hconst := hn₀ n₀ le_rfl
  rw [hfmt, hw] at hconst
  have hstall := roundInt_filterIterate_stalled k.roundTie n₀
  norm_cast at hstall hconst
  omega

end Sys2Proof.Machine


/-! ## Per-register effects of an instruction (R26) -/

namespace Sys2Proof.Machine

/-! ### Operations by cases -/

/-- What holds of a refusal and of the body on a channel holds of the command on the channel. -/
theorem onChannel_elim {P : State → Prop} {s : State} {c : Index} {body : Channel → State} (hrefuse : P s.refuse)
    (hbody : c.toNat < s.cfg.nch → P (body (s.channel c))) : P (s.onChannel c body) := by
  rcases onChannel_cases s c body with ⟨hc, heq⟩ | ⟨_, heq⟩ <;> rw [heq]
  · exact hbody hc
  · exact hrefuse

/-- What holds of a refusal and of the body on a filter holds of the command on the filter. -/
theorem onFilter_elim {P : State → Prop} {s : State} {f : Index} {body : Rat → State} (hrefuse : P s.refuse)
    (hbody : f.toNat < s.cfg.nfilt → P (body (s.avgAt f))) : P (s.onFilter f body) := by
  rcases onFilter_cases s f body with ⟨hf, heq⟩ | ⟨_, heq⟩ <;> rw [heq]
  · exact hbody hf
  · exact hrefuse

/-- What holds of the state itself and of the body on a present channel holds of the pin event. -/
theorem onPin_elim {P : State → Prop} {s : State} {c : Index} {body : Channel → Channel} (hself : P s)
    (hbody : s.cfg.present c = true → P (s.setChannel c (body (s.channel c)))) : P (s.onPin c body) := by
  rcases onPin_cases s c body with ⟨hc, heq⟩ | ⟨_, heq⟩ <;> rw [heq]
  · exact hbody hc
  · exact hself

/-! ### What an instruction does to one channel and to one filter -/

/-- What instruction `i` can leave in the registers of channel `c`: the column "written by" of R26, row by row. -/
inductive ChannelEffect (s : State) (c : Index) : Instr → Channel → Prop
  | kept {i : Instr} : ChannelEffect s c i (s.channel c)
  | staged : ChannelEffect s c .poll (s.channel c).stage
  | rise (hp : s.cfg.present c = true) : ChannelEffect s c (.edgeRise c) { s.channel c with riseTs := s.time }
  | fall (hp : s.cfg.present c = true) :
      ChannelEffect s c (.edgeFall c) { s.channel c with raw := s.time - (s.channel c).riseTs }
  | norm (v : NormWord) : ChannelEffect s c (.norm c) { s.channel c with nval := v }
  | ldep (k : Endpoint) (u : Half) :
      ChannelEffect s c (.ldep c k u) ((s.channel c).setEndpoint k (loadedEndpoint k u))
  | wrep (k : Endpoint) (u : Half) : ChannelEffect s c (.wrep c k u) ((s.channel c).setEndpoint k u)

/-- What instruction `i` can leave in `AVG[f]` (R26). -/
inductive AvgEffect (s : State) (f : Index) : Instr → Rat → Prop
  | kept {i : Instr} : AvgEffect s f i (s.avgAt f)
  | fstep (x : Half) :
      AvgEffect s f (.fstep f x) (filterNext s.cfg.filtFmt (s.cfg.weight f) (s.avgAt f) x.toInt)
  | frst (x : Half) : AvgEffect s f (.frst f x) (fofint s.cfg.filtFmt x.toInt)

/-- What an instruction can leave in the two banks. -/
structure BankEffect (i : Instr) (s t : State) : Prop where
  channel : ∀ c, ChannelEffect s c i (t.channel c)
  avgAt : ∀ f, AvgEffect s f i (t.avgAt f)
  avgLength : t.avg.length = s.avg.length

theorem bankEffect_refuse (i : Instr) (s : State) : BankEffect i s s.refuse := ⟨fun _ => .kept, fun _ => .kept, rfl⟩

theorem bankEffect_respond (i : Instr) (s : State) (d : Word) : BankEffect i s (s.respond d) :=
  ⟨fun _ => .kept, fun _ => .kept, rfl⟩

/-- A write of one channel has the effect of what it writes. -/
theorem bankEffect_setChannel {i : Instr} {s : State} {c : Index} {ch : Channel} (h : ChannelEffect s c i ch) :
    BankEffect i s (s.setChannel c ch) := by
  refine ⟨fun d => ?_, fun _ => .kept, rfl⟩
  rcases channel_setChannel_cases s c d ch with heq | ⟨rfl, heq⟩ <;> rw [heq]
  · exact .kept
  · exact h

/-- All that a filter can read as after a write of filter `f`. -/
theorem avgAt_setAvg_cases (s : State) (f g : Index) (a : Rat) :
    (s.setAvg f a).avgAt g = s.avgAt g ∨ g = f ∧ (s.setAvg f a).avgAt g = a := by
  by_cases hg : g = f
  · subst hg
    by_cases hlen : g.toNat < s.avg.length
    · exact .inr ⟨rfl, avgAt_setAvg_self s g a hlen⟩
    · refine .inl (congrArg (List.getD · g.toNat _) ?_)
      exact List.set_eq_of_length_le (not_lt.mp hlen)
  · exact .inl (avgAt_setAvg_ne s a hg)

/-- A write of one filter has the effect of what it writes. -/
theorem bankEffect_setAvg {i : Instr} {s : State} {f : Index} {a : Rat} (h : AvgEffect s f i a) :
    BankEffect i s (s.setAvg f a) := by
  refine ⟨fun _ => .kept, fun g => ?_, List.length_set⟩
  rcases avgAt_setAvg_cases s f g a with heq | ⟨rfl, heq⟩ <;> rw [heq]
  · exact .kept
  · exact h

/-- The banks see neither a response nor a draw. -/
theorem BankEffect.congr {i : Instr} {s t u : State} (h : BankEffect i s t) (hcfg : u.cfg = t.cfg)
    (hch : u.channels = t.channels) (havg : u.avg = t.avg) : BankEffect i s u := by
  obtain ⟨hchannel, havgAt, hlen⟩ := h
  refine ⟨fun c => channel_congr hcfg hch c ▸ hchannel c, fun f => ?_, havg ▸ hlen⟩
  rw [State.avgAt, havg]
  exact havgAt f

/-- All that an instruction can do to the banks. -/
theorem bankEffect_of_exec {i : Instr} {s t : State} (h : exec i s = .next t) : BankEffect i s t := by
  cases i <;> cases h
  case fstep f x =>
    exact onFilter_elim (bankEffect_refuse _ s) fun _ => (bankEffect_setAvg (.fstep x)).congr rfl rfl rfl
  case frst f x =>
    exact onFilter_elim (bankEffect_refuse _ s) fun _ => (bankEffect_setAvg (.frst x)).congr rfl rfl rfl
  case fpeek => exact onFilter_elim (bankEffect_refuse _ s) fun _ => bankEffect_respond _ s _
  case rdtime => exact bankEffect_respond _ s _
  case rdst | rdnv | rdep => exact onChannel_elim (bankEffect_refuse _ s) fun _ => bankEffect_respond _ s _
  case poll => exact ⟨fun c => channel_map_stage s c ▸ .staged, fun _ => .kept, rfl⟩
  case norm c =>
    refine onChannel_elim (bankEffect_refuse _ s) fun _ => ?_
    split <;> exact (bankEffect_setChannel (.norm _)).congr rfl rfl rfl
  case ldep c k u =>
    exact onChannel_elim (bankEffect_refuse _ s) fun _ => (bankEffect_setChannel (.ldep k u)).congr rfl rfl rfl
  case wrep c k u =>
    exact onChannel_elim (bankEffect_refuse _ s) fun _ => (bankEffect_setChannel (.wrep k u)).congr rfl rfl rfl
  case edgeRise c => exact onPin_elim ⟨fun _ => .kept, fun _ => .kept, rfl⟩ fun hp => bankEffect_setChannel (.rise hp)
  case edgeFall c => exact onPin_elim ⟨fun _ => .kept, fun _ => .kept, rfl⟩ fun hp => bankEffect_setChannel (.fall hp)

/-! ### The single-writer table (R26) -/

/-! A write of an endpoint, register by register. -/

@[simp] theorem Channel.setEndpoint_riseTs (ch : Channel) (k : Endpoint) (v : Half) :
    (ch.setEndpoint k v).riseTs = ch.riseTs := by cases k <;> rfl

@[simp] theorem Channel.setEndpoint_raw (ch : Channel) (k : Endpoint) (v : Half) :
    (ch.setEndpoint k v).raw = ch.raw := by cases k <;> rfl

@[simp] theorem Channel.setEndpoint_staged (ch : Channel) (k : Endpoint) (v : Half) :
    (ch.setEndpoint k v).staged = ch.staged := by cases k <;> rfl

@[simp] theorem Channel.setEndpoint_nval (ch : Channel) (k : Endpoint) (v : Half) :
    (ch.setEndpoint k v).nval = ch.nval := by cases k <;> rfl

section Writers

variable {s : State} {i : Instr}

/-- `AVG[f]` is written by FSTEP f and FRST f alone. -/
theorem AvgEffect.writer {f : Index} {a : Rat} (h : AvgEffect s f i a) (hne : a ≠ s.avgAt f) :
    ∃ v, i = .fstep f v ∨ i = .frst f v := by
  cases h with
  | kept => exact absurd rfl hne
  | fstep x => exact ⟨x, .inl rfl⟩
  | frst x => exact ⟨x, .inr rfl⟩

variable {c : Index} {ch : Channel}

/-- `RISE_TS[c]` is written by EDGE.RISE c alone. -/
theorem ChannelEffect.riseTs_writer (h : ChannelEffect s c i ch) (hne : ch.riseTs ≠ (s.channel c).riseTs) :
    i = .edgeRise c := by
  cases h with
  | rise _ => rfl
  | kept | staged | fall _ | norm _ => exact absurd rfl hne
  | ldep k u | wrep k u => exact absurd (Channel.setEndpoint_riseTs ..) hne

/-- `RAW[c]` is written by EDGE.FALL c alone. -/
theorem ChannelEffect.raw_writer (h : ChannelEffect s c i ch) (hne : ch.raw ≠ (s.channel c).raw) :
    i = .edgeFall c := by
  cases h with
  | fall _ => rfl
  | kept | staged | rise _ | norm _ => exact absurd rfl hne
  | ldep k u | wrep k u => exact absurd (Channel.setEndpoint_raw ..) hne

/-- `STAGED[c]` is written by POLL alone. -/
theorem ChannelEffect.staged_writer (h : ChannelEffect s c i ch) (hne : ch.staged ≠ (s.channel c).staged) :
    i = .poll := by
  cases h with
  | staged => rfl
  | kept | rise _ | fall _ | norm _ => exact absurd rfl hne
  | ldep k u | wrep k u => exact absurd (Channel.setEndpoint_staged ..) hne

/-- `NVAL[c]` is written by NORM c alone. -/
theorem ChannelEffect.nval_writer (h : ChannelEffect s c i ch) (hne : ch.nval ≠ (s.channel c).nval) :
    i = .norm c := by
  cases h with
  | norm _ => rfl
  | kept | staged | rise _ | fall _ => exact absurd rfl hne
  | ldep k u | wrep k u => exact absurd (Channel.setEndpoint_nval ..) hne

/-- An endpoint that a write of endpoint `k` changes is endpoint `k`. -/
theorem Channel.eq_of_endpoint_setEndpoint_ne {ch : Channel} {j k : Endpoint} {v : Half}
    (hne : (ch.setEndpoint k v).endpoint j ≠ ch.endpoint j) : j = k := by
  by_contra hjk
  exact hne (by rw [Channel.endpoint_setEndpoint, if_neg hjk])

/-- An endpoint of channel `c` is written by the LDEP and the WREP of that endpoint alone. -/
theorem ChannelEffect.endpoint_writer {k : Endpoint} (h : ChannelEffect s c i ch)
    (hne : ch.endpoint k ≠ (s.channel c).endpoint k) : ∃ u, i = .ldep c k u ∨ i = .wrep c k u := by
  cases h with
  | ldep j u =>
    obtain rfl := Channel.eq_of_endpoint_setEndpoint_ne hne
    exact ⟨u, .inl rfl⟩
  | wrep j u =>
    obtain rfl := Channel.eq_of_endpoint_setEndpoint_ne hne
    exact ⟨u, .inr rfl⟩
  | kept | staged | rise _ | fall _ | norm _ => cases k <;> exact absurd rfl hne

end Writers

/-- All that an input but a reset can do: an instruction, nothing to any register, or an advance of `TIME` alone. -/
theorem perform_cases {s t : State} {x : Input} (hx : isNotReset x = true) (h : s.perform x.fetch = .next t) :
    (∃ i, x = present i ∧ exec i s = .next t) ∨ sameRegisters s t ∨
      ∃ d, x = .event (.advance d) ∧ t = s.advance d := by
  have hv := inputView x
  generalize x.fetch = f at h hv
  cases hv with
  | run i => exact .inl ⟨i, rfl, h⟩
  | refuse _ _ | quiet _ _ =>
    cases h
    exact .inr (.inl ⟨rfl, rfl, rfl, rfl⟩)
  | advance d =>
    cases h
    exact .inr (.inr ⟨d, rfl, rfl⟩)
  | reset _ => cases hx

/-- A state with the same registers reads the same on every channel and every filter. -/
theorem sameRegisters.reads {s t : State} (h : sameRegisters s t) :
    (∀ c, t.channel c = s.channel c) ∧ ∀ f, t.avgAt f = s.avgAt f := by
  obtain ⟨hcfg, _, hch, havg⟩ := h
  exact ⟨channel_congr hcfg hch, fun f => by rw [State.avgAt, State.avgAt, havg]⟩

/-- Settles O14: an input with an instruction by the writers of `BankEffect`; no other input but a reset changes a
register, or it is an advance and changes `TIME` alone. -/
theorem registersHaveOnlyTheirWriters : Obligations.RegistersHaveOnlyTheirWriters := by
  unfold Obligations.RegistersHaveOnlyTheirWriters
  intro s t x rest hs hx hstep
  rw [step_cons hs] at hstep
  rcases perform_cases hx hstep with ⟨i, rfl, hexec⟩ | hsame | ⟨d, rfl, rfl⟩
  case inl =>
    obtain ⟨hcfg, htime, _, _⟩ := execEffect_of_exec hexec
    obtain ⟨hchannel, havg, _⟩ := bankEffect_of_exec hexec
    refine ⟨hcfg, fun hne => absurd htime hne, fun f hne => ?avg, fun c => ?channel⟩
    case avg =>
      obtain ⟨v, hv⟩ := (havg f).writer hne
      exact ⟨v, hv.imp (congrArg present) (congrArg present)⟩
    case channel =>
      refine ⟨fun hne => congrArg present ((hchannel c).riseTs_writer hne),
        fun hne => congrArg present ((hchannel c).raw_writer hne),
        fun hne => congrArg present ((hchannel c).staged_writer hne),
        fun hne => congrArg present ((hchannel c).nval_writer hne), fun k hne => ?_⟩
      obtain ⟨u, hu⟩ := (hchannel c).endpoint_writer hne
      exact ⟨u, hu.imp (congrArg present) (congrArg present)⟩
  case inr.inl =>
    obtain ⟨hchannel, havg⟩ := hsame.reads
    obtain ⟨hcfg, htime, _, _⟩ := hsame
    refine ⟨hcfg, fun hne => absurd htime hne, fun f hne => absurd (havg f) hne, fun c => ?_⟩
    simp [hchannel c]
  case inr.inr =>
    refine ⟨rfl, fun _ => ⟨d, rfl⟩, fun f hne => absurd rfl hne, fun c => ?_⟩
    simp

/-! ### Invariants of every step -/

/-- A property of the registers is kept by every step when each instruction, an advance and RESET keep it: a refusal, a
pin at rest and the taking of the input change no register. -/
theorem step_keeps {P : State → Prop} (hsame : ∀ {s t}, sameRegisters s t → P s → P t)
    (hexec : ∀ {i s t}, exec i s = .next t → P s → P t) (hadvance : ∀ {s} d, P s → P (s.advance d))
    (hreset : ∀ {s}, P s → P s.doReset) {s t : State} (hs : P s) (h : step s = .next t) : P t := by
  have hperform : ∀ {u : State} (x : Fetched), P u → u.perform x = .next t → P t := fun {u} x hu hx => by
    cases x with
    | run i => exact hexec hx hu
    | refuse _ =>
      cases hx
      exact hsame (s := u) ⟨rfl, rfl, rfl, rfl⟩ hu
    | quiet =>
      cases hx
      exact hu
    | advance d =>
      cases hx
      exact hadvance d hu
    | reset =>
      cases hx
      exact hreset hu
  rcases step_cases s with ⟨x, rest, _, heq⟩ | ⟨x, _, heq⟩ | ⟨_, heq⟩ <;> rw [heq] at h
  · exact hperform x.fetch (hsame (s := s) (t := s.consume rest) ⟨rfl, rfl, rfl, rfl⟩ hs) h
  · exact hperform x.fetch (hsame (s := s) (t := s.countOffer) ⟨rfl, rfl, rfl, rfl⟩ hs) h
  · cases h
    exact hsame (s := s) (t := s.countOffer) ⟨rfl, rfl, rfl, rfl⟩ hs

/-- What an instruction writes to `AVG[f]` is a number of the format in the operand range, when the value before was
(R28, R73). -/
theorem AvgEffect.avgOk {s : State} {i : Instr} {f : Index} {a : Rat} (h : AvgEffect s f i a)
    (hs : avgOk s.cfg.filtFmt (s.avgAt f)) : avgOk s.cfg.filtFmt a := by
  cases h with
  | kept => exact hs
  | frst x =>
    have hlow := BitVec.le_toInt x
    have hhigh := BitVec.toInt_lt (x := x)
    rw [show fofint s.cfg.filtFmt x.toInt = (x.toInt : Rat) from rnd_operand _ x]
    exact avgOk_intCast _ (by omega) (by omega)
  | fstep x =>
    obtain ⟨_, hge, hle⟩ := hs
    have hlow := BitVec.le_toInt x
    have hhigh := BitVec.toInt_lt (x := x)
    obtain ⟨hge', hle'⟩ := filterNext_between (fmt := s.cfg.filtFmt) (x := x) (m := -32768) (M := 32767)
      (Config.weight_le s.cfg f) le_rfl le_rfl (by exact_mod_cast hge) (by exact_mod_cast hle) (by omega) (by omega)
    exact ⟨⟨_, (filterNext_eq _ _ _ _).symm⟩, by exact_mod_cast hge', by exact_mod_cast hle'⟩

/-- In a state with its whole banks the running values are what the filters read as: a filter index reaches each. -/
theorem forall_mem_avg_iff {s : State} (hb : s.banksOk) {p : Rat → Prop} :
    (∀ a ∈ s.avg, p a) ↔ ∀ f : Index, f.toNat < s.cfg.nfilt → p (s.avgAt f) := by
  obtain ⟨hwf, _, hlen⟩ := hb
  obtain ⟨_, hle⟩ := Config.nfilt_le_of_wf hwf
  constructor
  · exact fun h f hf => h _ (avgAt_mem s f (hlen ▸ hf))
  · intro h a ha
    obtain ⟨n, hn, rfl⟩ := List.mem_iff_getElem.mp ha
    have hf : (BitVec.ofNat 4 n).toNat = n := by
      rw [BitVec.toNat_ofNat]
      omega
    have hp := h (BitVec.ofNat 4 n) (by omega)
    rwa [State.avgAt, hf, List.getD_eq_getElem _ _ hn] at hp

/-- An instruction keeps the type invariants. -/
theorem typeInv_of_exec {i : Instr} {s t : State} (h : exec i s = .next t) (hs : s.typeInv) : t.typeInv := by
  obtain ⟨hb, hold⟩ := hs
  obtain ⟨hcfg, _, _, hwritten⟩ := execEffect_of_exec h
  obtain ⟨_, havg, hlen⟩ := bankEffect_of_exec h
  rw [forall_mem_avg_iff hb] at hold
  have hbt : t.banksOk := by
    obtain ⟨hwf, hnch, hnfilt⟩ := hb
    exact ⟨hcfg ▸ hwf, by rw [hwritten.length_eq, hnch, hcfg], by rw [hlen, hnfilt, hcfg]⟩
  refine ⟨hbt, (forall_mem_avg_iff hbt).mpr fun f hf => ?_⟩
  rw [hcfg] at hf ⊢
  exact (havg f).avgOk (hold f hf)

/-- The type invariants hold of every legal configuration after reset (R28, R29). -/
theorem typeInv_resetFor {k : Config} (h : k.wf = true) : (State.resetFor k).typeInv := by
  refine ⟨banksOk_resetFor h, fun a ha => ?_⟩
  rw [List.eq_of_mem_replicate ha]
  exact_mod_cast avgOk_intCast k.filtFmt (n := 0) (by norm_num) (by norm_num)

/-- The type invariants are of the configuration and the banks. -/
theorem typeInv_congr {s t : State} (h : sameRegisters s t) (hs : s.typeInv) : t.typeInv := by
  obtain ⟨hcfg, _, hch, havg⟩ := h
  rw [State.typeInv, State.banksOk, hcfg, hch, havg]
  exact hs

/-- Settles O12: an instruction by `typeInv_of_exec`, RESET by `typeInv_resetFor`. -/
theorem stepKeepsTypeInvariant : Obligations.StepKeepsTypeInvariant := by
  unfold Obligations.StepKeepsTypeInvariant
  exact fun s t hs h => step_keeps (P := State.typeInv) typeInv_congr typeInv_of_exec (fun _ hs => hs)
    (fun ⟨⟨hwf, _⟩, _⟩ => typeInv_resetFor hwf) hs h

/-- The block as built is legal, whatever its OPEN parameters are (R10). -/
theorem Config.built_wf : Config.built.wf = true := by
  have hch : Config.built.nch = Config.builtNchPred.val + 1 := by simp [Config.nch, Config.built]
  have hfilt : Config.built.nfilt = Config.builtNfiltPred.val + 1 := by simp [Config.nfilt, Config.built]
  have := Config.builtNchPred.isLt
  have := Config.builtNfiltPred.isLt
  simp only [Config.wf, hch, hfilt, Bool.and_eq_true, decide_eq_true_eq]
  omega

/-- Settles O13: by `typeInv_resetFor`. -/
theorem typeInvariantAtReset : Obligations.TypeInvariantAtReset := by
  unfold Obligations.TypeInvariantAtReset
  exact ⟨typeInv_resetFor Config.built_wf, fun _ => typeInv_resetFor⟩

/-- After reset an absent channel has captured nothing, nor has any other (R29, R82). -/
theorem absentInv_resetFor (k : Config) : (State.resetFor k).absentInv := fun c _ => by
  rw [channel_resetFor]
  exact ⟨rfl, rfl⟩

/-- An instruction captures on present channels only: the two registers are written by the edges of their channel, which
have an effect on a present one only (R80 to R82). -/
theorem absentInv_of_exec {i : Instr} {s t : State} (h : exec i s = .next t) (hs : s.absentInv) : t.absentInv := by
  intro c habsent
  rw [(execEffect_of_exec h).cfg] at habsent ⊢
  obtain ⟨hrise, hraw⟩ := hs c habsent
  have hc := (bankEffect_of_exec h).channel c
  generalize t.channel c = ch at hc ⊢
  cases hc with
  | kept | staged | norm _ => exact ⟨hrise, hraw⟩
  | rise hp | fall hp => exact absurd hp (by simp [habsent])
  | ldep k u | wrep k u => exact ⟨(Channel.setEndpoint_riseTs ..).trans hrise, (Channel.setEndpoint_raw ..).trans hraw⟩

/-- Settles O23: an instruction by `absentInv_of_exec`, RESET by `absentInv_resetFor`. -/
theorem absentChannelNeverCaptures : Obligations.AbsentChannelNeverCaptures := by
  unfold Obligations.AbsentChannelNeverCaptures
  refine ⟨absentInv_resetFor, fun s t hs h => step_keeps (P := State.absentInv) (fun hsame hs c habsent => ?same)
    absentInv_of_exec (fun _ hs => hs) (fun {s} _ => absentInv_resetFor s.cfg) hs h⟩
  case same =>
    obtain ⟨hchannel, _⟩ := hsame.reads
    obtain ⟨hcfg, _⟩ := hsame
    rw [hchannel c, hcfg]
    exact hs c (hcfg ▸ habsent)

end Sys2Proof.Machine


/-! ## Words, what a step runs, and one response to every command (R50, R113, R118) -/

namespace Sys2Proof

/-! ### The mask and match columns of the opcode map (R53, R54) -/

/-- No format requires a bit of the opcode field to be zero (R53). -/
theorem lt_of_zeroMask : ∀ (f : Format), ∀ j < 32, f.zeroMask.getLsbD j = true → j < 24 := by
  intro f
  cases f <;> decide

/-- Below the opcode field an opcode's value has no bit. -/
theorem getLsbD_opcode_append (op : BitVec 8) {j : Nat} (h : j < 24) : (op ++ 0#24 : Word).getLsbD j = false := by
  rw [BitVec.getLsbD_append, if_pos h, BitVec.getLsbD_zero]

/-- An opcode's value has that opcode. -/
theorem opField_append (op : BitVec 8) : opField (op ++ 0#24) = op := BitVec.extractLsb'_append_eq_left

/-- The bits of a word in the opcode field's mask are its opcode. -/
theorem and_opcode_mask (w : Word) : w &&& 0xFF000000#32 = opField w ++ 0#24 := by
  have hmask : ∀ j < 32, (0xFF000000#32 : Word).getLsbD j = decide (24 ≤ j) := by decide
  refine BitVec.eq_of_getLsbD_eq fun j hj => ?_
  rw [BitVec.getLsbD_and, hmask j hj]
  by_cases h : j < 24
  · rw [getLsbD_opcode_append _ h, decide_eq_false (not_le.mpr h), Bool.and_false]
  · rw [BitVec.getLsbD_append, if_neg h, opField, BitVec.getLsbD_extractLsb', decide_eq_true (not_lt.mp h),
      decide_eq_true (show j - 24 < 8 by omega), show 24 + (j - 24) = j by omega, Bool.and_true, Bool.true_and]

/-- A word agrees with an opcode's value under that opcode's mask in a format exactly when it has the opcode and none of
the format's must-be-zero bits. -/
theorem and_mask_eq_iff (w : Word) (f : Format) (op : BitVec 8) :
    w &&& (0xFF000000#32 ||| f.zeroMask) = op ++ 0#24 ↔ op = opField w ∧ w &&& f.zeroMask = 0#32 := by
  have hsplit : w &&& (0xFF000000#32 ||| f.zeroMask) = (opField w ++ 0#24) ||| (w &&& f.zeroMask) := by
    rw [BitVec.and_or_distrib_left, and_opcode_mask]
  constructor
  · intro h
    have hz : w &&& f.zeroMask = 0#32 := by
      refine (and_eq_zero_iff w _).mpr fun j hj hmask => ?_
      have hbit := congrArg (fun v : Word => v.getLsbD j) h
      simpa [hmask, getLsbD_opcode_append op (lt_of_zeroMask f j hj hmask)] using hbit
    rw [hsplit, hz, BitVec.or_zero] at h
    have hop : opField (opField w ++ 0#24) = opField (op ++ 0#24) := congrArg opField h
    rw [opField_append, opField_append] at hop
    exact ⟨hop.symm, hz⟩
  · rintro ⟨rfl, hz⟩
    rw [hsplit, hz, BitVec.or_zero]

/-- The mask of every row is its opcode's bits and its format's must-be-zero bits, its match the opcode's value (R53,
R54). -/
theorem opcodeMap_mask_match : ∀ r ∈ opcodeMap, r.mask = 0xFF000000#32 ||| r.format.zeroMask ∧
    r.matchWord = r.op ++ 0#24 := by decide

/-- No two rows have one opcode: a row's opcode finds that row (R54). -/
theorem opcodeMap_find_row : ∀ r ∈ opcodeMap, (opcodeMap.find? fun r' => r'.op == r.op) = some r := by decide

/-- A word agrees with a row under the row's mask exactly when its opcode finds that row and it has none of the
must-be-zero bits of the row's format. -/
theorem matches_row_iff {r : OpRow} (hr : r ∈ opcodeMap) (w : Word) : w &&& r.mask = r.matchWord ↔
    (opcodeMap.find? fun r' => r'.op == opField w) = some r ∧ w &&& r.format.zeroMask = 0#32 := by
  obtain ⟨hmask, hmatch⟩ := opcodeMap_mask_match r hr
  rw [hmask, hmatch, and_mask_eq_iff]
  refine and_congr_left fun _ => ⟨fun h => h ▸ opcodeMap_find_row r hr, fun h => ?_⟩
  simpa using List.find?_some h

/-- R50's procedure accepts a word exactly when it finds a row of the opcode map and passes the row's three tests. -/
theorem refusal_eq_none_iff (k : Config) (w : Word) : refusal k w = none ↔
    ∃ r, (opcodeMap.find? fun r => r.op == opField w) = some r ∧ w &&& r.format.zeroMask = 0#32 ∧
      r.space.admits k (idxField w) = true ∧ (r.selector = true → selField w ≠ 3#2) := by
  cases hrow : opcodeMap.find? fun r => r.op == opField w with
  | none => simp [refusal, hrow]
  | some r =>
    rw [refusal_of_row k hrow]
    simp only [Option.some.injEq, exists_eq_left']
    split_ifs <;> simp_all

/-- Settles O3: the procedure's row is the row that the word agrees with. -/
theorem wordAcceptedByMaskAndMatch : Obligations.WordAcceptedByMaskAndMatch := by
  unfold Obligations.WordAcceptedByMaskAndMatch
  intro k w
  rw [refusal_eq_none_iff]
  constructor
  · rintro ⟨r, hrow, hz, htests⟩
    have hr := List.mem_of_find?_eq_some hrow
    exact ⟨r, hr, (matches_row_iff hr w).mpr ⟨hrow, hz⟩, htests⟩
  · rintro ⟨r, hr, hmatch, htests⟩
    obtain ⟨hrow, hz⟩ := (matches_row_iff hr w).mp hmatch
    exact ⟨r, hrow, hz, htests⟩

/-- Settles O5: each word is the encoding of its instruction. -/
theorem specWordsDecode : Obligations.SpecWordsDecode := by
  unfold Obligations.SpecWordsDecode
  exact ⟨decode_of_encode rfl, decode_of_encode rfl, decode_of_encode rfl, decode_of_encode rfl, decode_of_encode rfl,
    decode_of_encode rfl, decode_of_encode rfl, decode_of_encode rfl, decode_of_encode rfl, decode_of_encode rfl⟩

end Sys2Proof

namespace Sys2Proof.Machine

/-! ### What a step runs (R50, R60, log 11) -/

/-- Settles O6: by `step_of_decode_ok`. -/
theorem stepRunsDecodedCommand : Obligations.StepRunsDecodedCommand := by
  unfold Obligations.StepRunsDecodedCommand
  exact fun s w i rest hs hd _ => step_of_decode_ok hs hd

/-- What the decoder reads from a table row's bits is what the block reads from the input that presents them. -/
theorem fetch_tableInput {nbits w : Nat} {i : Instr} (h : decodeTableWord nbits w = some i) :
    (tableInput nbits w).fetch = .run i := by
  unfold decodeTableWord at h
  unfold tableInput
  by_cases hbits : nbits < 32
  · rw [if_pos hbits] at h ⊢
    split at h
    · simp only [Input.fetch, h]
    · cases h
  · rw [if_neg hbits] at h ⊢
    split at h
    · split at h
      · cases h
        exact fetch_of_decode_ok (by assumption)
      · cases h
    · cases h

/-- Settles O8: the step takes the presented bits and leaves the state as it was before they were presented. -/
theorem presentedTableWordRunsNext : Obligations.PresentedTableWordRunsNext := by
  unfold Obligations.PresentedTableWordRunsNext
  intro s nbits w i h
  rw [step_cons (withFetchWord_inputs s nbits w), fetch_tableInput h]
  rfl

/-! ### The meaning of NORM (R97, R98) -/

/-- NORM of a channel whose endpoints are ordered (R97). -/
theorem exec_norm_of_ordered {s : State} {c : Index} (h : c.toNat < s.cfg.nch) (ho : (s.channel c).ordered = true) :
    exec (.norm c) s = .next (s.storeNorm c
      (BitVec.ofInt 8 ((s.channel c).normalized s.cfg.normRound (s.channel c).staged))) :=
  congrArg _ ((onChannel_of_lt s _ h).trans (if_pos ho))

/-- NORM of a channel whose endpoints are not ordered (R98). -/
theorem exec_norm_of_unordered {s : State} {c : Index} (h : c.toNat < s.cfg.nch)
    (ho : (s.channel c).ordered = false) :
    exec (.norm c) s = .next (s.countDraw.storeNorm c (Config.normDraw s.draws)) :=
  congrArg _ ((onChannel_of_lt s _ h).trans (if_neg (Bool.eq_false_iff.mp ho)))

/-! ### One response to every command (R113, R118) -/

/-- A command whose index names something that was built responds once, with `err = 0` (R59). -/
theorem exec_responds_of_wf {i : Instr} {w : Word} {s : State} (hc : encode i = .command w) (hwf : i.wf s.cfg = true) :
    ∃ t d, exec i s = .next t ∧ respondedWith [⟨false, d⟩] s t := by
  cases i with
  | edgeRise c | edgeFall c => cases hc
  | poll | rdtime => exact ⟨_, _, rfl, rfl⟩
  | fstep f x => exact ⟨_, _, exec_fstep_of_lt x (of_decide_eq_true hwf), rfl⟩
  | fpeek f => exact ⟨_, _, exec_fpeek_of_lt (of_decide_eq_true hwf), rfl⟩
  | frst f x => exact ⟨_, _, exec_frst_of_lt x (of_decide_eq_true hwf), rfl⟩
  | rdst c => exact ⟨_, _, exec_rdst_of_lt (of_decide_eq_true hwf), rfl⟩
  | rdnv c => exact ⟨_, _, exec_rdnv_of_lt (of_decide_eq_true hwf), rfl⟩
  | ldep c k u => exact ⟨_, _, exec_ldep_of_lt k u (of_decide_eq_true hwf), rfl⟩
  | wrep c k u => exact ⟨_, _, exec_wrep_of_lt k u (of_decide_eq_true hwf), rfl⟩
  | rdep c k => exact ⟨_, _, exec_rdep_of_lt k (of_decide_eq_true hwf), rfl⟩
  | norm c =>
    cases ho : (s.channel c).ordered with
    | true => exact ⟨_, _, exec_norm_of_ordered (of_decide_eq_true hwf) ho, rfl⟩
    | false => exact ⟨_, _, exec_norm_of_unordered (of_decide_eq_true hwf) ho, rfl⟩

/-- A command word is answered once, with the `err` bit of R50's procedure (R50, R113, R118). -/
theorem step_responds {s : State} {w : Word} {rest : List Input} (hs : s.inputs = .event (.command w) :: rest) :
    ∃ t d, step s = .next t ∧ t.inputs = rest ∧ respondedWith [⟨(refusal s.cfg w).isSome, d⟩] s t := by
  cases hr : refusal s.cfg w with
  | some r => exact ⟨_, _, step_of_refusal hs hr, rfl, rfl⟩
  | none =>
    obtain ⟨i, hd, hwf⟩ := decode_of_refusal_none hr
    obtain ⟨t, d, hexec, hresp⟩ :=
      exec_responds_of_wf (s := s.consume rest) (acceptedWordIsItsEncoding w i hd) hwf
    exact ⟨t, d, (step_of_decode_ok hs hd).trans hexec, (execEffect_of_exec hexec).inputs, hresp⟩

/-- Settles O10: the `err` bit is that of R50's procedure, which depends on the word, `NCH` and `NFILT` alone. -/
theorem errBitIndependentOfState : Obligations.ErrBitIndependentOfState := by
  unfold Obligations.ErrBitIndependentOfState
  intro s₁ s₂ w rest₁ rest₂ hch hfilt hs₁ hs₂
  obtain ⟨t₁, d₁, hstep₁, _, hresp₁⟩ := step_responds hs₁
  obtain ⟨t₂, d₂, hstep₂, _, hresp₂⟩ := step_responds hs₂
  exact ⟨t₁, t₂, _, _, hstep₁, hstep₂, hresp₁, hresp₂, congrArg Option.isSome (refusal_congr hch hfilt w)⟩

/-! ### Infinite executions (R121, R123) -/

/-- The state a step leads to: every step completes, so that one is named (R123). -/
noncomputable def nextState (s : State) : State := (step_completes s).choose

theorem step_eq_nextState (s : State) : step s = .next (nextState s) := (step_completes s).choose_spec

/-- The states under an infinite sequence of inputs, from `s` on (R121). -/
noncomputable def execution (env : Nat → Input) (s : State) : Nat → State
  | 0 => s
  | n + 1 => nextState { execution env s n with inputs := [env n] }

theorem isExecution_execution (env : Nat → Input) (s : State) : isExecution env (execution env s) :=
  fun _ => step_eq_nextState _

/-- Where nothing is listed a step takes what the free environment presents, or passes (log 4). -/
theorem step_of_inputs_nil {s : State} (hs : s.inputs = []) :
    step s = (Config.environment s.offers).elim (.next { s with offers := s.offers + 1 })
      fun x => step { s with inputs := [x], offers := s.offers + 1 } := by
  cases henv : Config.environment s.offers with
  | none => exact step_idle hs henv
  | some x =>
    have htaken : State.consume { s with inputs := [x], offers := s.offers + 1 } [] = s.countOffer := by
      rw [← hs]
      rfl
    have hstep : step { s with inputs := [x], offers := s.offers + 1 } = s.countOffer.perform x.fetch :=
      htaken ▸ step_cons rfl
    rw [step_offered hs henv]
    exact hstep.symm

/-- Settles O11: completion by `step_completes`, the response by `step_responds`, the execution by iterating the
step. -/
theorem everyStepCompletes : Obligations.EveryStepCompletes := by
  unfold Obligations.EveryStepCompletes
  refine ⟨step_completes, fun s w rest hs => ?_, fun env s => ⟨_, rfl, isExecution_execution env s⟩,
    fun s => step_of_inputs_nil⟩
  obtain ⟨t, d, hstep, hrest, hresp⟩ := step_responds hs
  exact ⟨t, _, hstep, hresp, hrest⟩

/-! ### The five reads (R38) -/

/-- A command that reads a channel and responds changes nothing but the list of responses, and does not read that. -/
theorem exec_channel_read {i : Instr} {c : Index} {d : Channel → Word}
    (hexec : ∀ u, exec i u = .next (u.onChannel c fun ch => u.respond (d ch))) (s : State) :
    ∃ r, ∀ rs : List Response, exec i { s with responses := rs } = .next { s with responses := rs ++ [r] } := by
  by_cases h : c.toNat < s.cfg.nch
  · exact ⟨.accepted (d (s.channel c)), fun rs =>
      (hexec _).trans (congrArg _ (onChannel_of_lt { s with responses := rs } _ h))⟩
  · exact ⟨.refused, fun rs =>
      (hexec _).trans (congrArg _ (onChannel_of_ge { s with responses := rs } _ (not_lt.mp h)))⟩

/-- So does FPEEK, of a filter. -/
theorem exec_fpeek_read (f : Index) (s : State) :
    ∃ r, ∀ rs : List Response, exec (.fpeek f) { s with responses := rs } =
      .next { s with responses := rs ++ [r] } := by
  by_cases h : f.toNat < s.cfg.nfilt
  · exact ⟨.accepted (BitVec.ofInt 32 (roundInt s.cfg.roundTie (s.avgAt f))), fun rs =>
      exec_fpeek_of_lt (s := { s with responses := rs }) h⟩
  · exact ⟨.refused, fun rs => congrArg _ (onFilter_of_ge { s with responses := rs } _ (not_lt.mp h))⟩

/-- A read responds the same whatever has been responded before, and changes nothing but that list (R38). -/
theorem exec_read (s : State) (c : Index) (k : Endpoint) :
    ∀ i ∈ [Instr.rdst c, .rdnv c, .rdep c k, .rdtime, .fpeek c], ∃ r, ∀ rs : List Response,
      exec i { s with responses := rs } = .next { s with responses := rs ++ [r] } := by
  simp only [List.forall_mem_cons, List.not_mem_nil, false_implies, implies_true, and_true]
  exact ⟨exec_channel_read (d := Channel.staged) (fun _ => rfl) s,
    exec_channel_read (d := fun ch => sextNorm ch.nval) (fun _ => rfl) s,
    exec_channel_read (d := fun ch => zextEndpoint (ch.endpoint k)) (fun _ => rfl) s,
    ⟨.accepted s.time, fun _ => rfl⟩, exec_fpeek_read c s⟩

/-- Settles O16: by `exec_read`, at the responses before the read and after it. -/
theorem readsHaveNoSideEffect : Obligations.ReadsHaveNoSideEffect := by
  unfold Obligations.ReadsHaveNoSideEffect
  intro s c k i hi
  obtain ⟨r, hread⟩ := exec_read s c k i hi
  exact ⟨_, _, r, hread s.responses, ⟨rfl, rfl, rfl, rfl⟩, ⟨rfl, rfl, rfl⟩, rfl, hread (s.responses ++ [r]), rfl⟩

/-! ### The endpoints after reset (R30), and edges of no channel (log 7) -/

/-- Settles O19: the defaults 1000, 1500 and 2000. -/
theorem resetEndpointsOrdered : Obligations.ResetEndpointsOrdered := by
  unfold Obligations.ResetEndpointsOrdered
  intro k c _
  rw [channel_resetFor, Channel.atReset_eq]
  refine ⟨rfl, fun e => ?_⟩
  cases e <;> rfl

/-- An index that is no channel is not present (R10). -/
theorem Config.not_present_of_ge {k : Config} {c : Index} (h : k.nch ≤ c.toNat) : k.present c = false := by
  by_contra hp
  exact absurd (Config.lt_of_present (Bool.not_eq_false _ ▸ hp)) (not_lt.mpr h)

/-- Settles O58: an index that is no channel is not present. -/
theorem edgeOfNoChannelHasNoEffect : Obligations.EdgeOfNoChannelHasNoEffect := by
  unfold Obligations.EdgeOfNoChannelHasNoEffect
  intro s c h
  have hp := Config.not_present_of_ge h
  exact ⟨congrArg _ (onPin_of_not_present _ hp), congrArg _ (onPin_of_not_present _ hp)⟩

end Sys2Proof.Machine


/-! ## Edges, polls and durations (R42, R85, R92, R112, R127) -/

namespace Sys2Proof.Machine

/-! ### Capture (R85, R92, R127) -/

/-- Settles O26: the run performs a rising edge, the inputs between and a falling edge, so `Performs.raw_of_rise`. -/
theorem captureMeasuresAcrossWrap : Obligations.CaptureMeasuresAcrossWrap := by
  unfold Obligations.CaptureMeasuresAcrossWrap
  intro s c mid rest hb hp hs hmid
  obtain ⟨t, hrun, hrest, hperf⟩ :=
    runN_performs (s := s) (xs := present (.edgeRise c) :: (mid ++ [present (.edgeFall c)])) (rest := rest)
      (by simp [hs])
  obtain ⟨hne, hnr⟩ := forall₂_and.mp hmid
  have hraw := hperf.raw_of_rise (captures_of_banksOk hb hp) hnr hne
  rw [List.length_cons, List.length_append, List.length_singleton] at hrun
  refine ⟨t, hrun, hrest, ?_, fun hlt => ?_⟩ <;> rw [hraw, BitVec.toNat_ofNat]
  exact Nat.mod_eq_of_lt hlt

/-- What an edge of channel `c` can write: `RISE_TS` and `RAW` of that channel, from `TIME` and its own registers. -/
structure EdgeBody (c : Index) (i : Instr) (body : Word → Channel → Channel) : Prop where
  exec_eq : ∀ s : State, exec i s = .next (s.onPin c (body s.time))
  writes : ∀ time ch, body time ch = { ch with riseTs := (body time ch).riseTs, raw := (body time ch).raw }

theorem exists_edgeBody {c : Index} {i : Instr} (h : i = .edgeRise c ∨ i = .edgeFall c) :
    ∃ body, EdgeBody c i body := by
  rcases h with rfl | rfl
  · exact ⟨fun time ch => { ch with riseTs := time }, fun _ => rfl, fun _ _ => rfl⟩
  · exact ⟨fun time ch => { ch with raw := time - ch.riseTs }, fun _ => rfl, fun _ _ => rfl⟩

/-- A pin event changes no register but those of its channel. -/
theorem sameButChannel_onPin (s : State) (c : Index) (body : Channel → Channel) :
    sameButChannel c s (s.onPin c body) :=
  onPin_elim ⟨rfl, rfl, rfl, rfl, fun _ _ => rfl⟩ fun _ => sameButChannel_setChannel s c _

/-- All that a channel can read as after its pin event. -/
theorem channel_onPin_cases (s : State) (c : Index) (body : Channel → Channel) :
    (s.onPin c body).channel c = s.channel c ∨ (s.onPin c body).channel c = body (s.channel c) :=
  onPin_elim (P := fun t => t.channel c = s.channel c ∨ t.channel c = body (s.channel c)) (.inl rfl) fun _ =>
    (channel_setChannel_cases s c c _).imp id And.right

/-- Pin events of different channels commute. -/
theorem onPin_comm (s : State) {c d : Index} (f g : Channel → Channel) (h : c ≠ d) :
    (s.onPin c f).onPin d g = (s.onPin d g).onPin c f := by
  rcases onPin_cases s c f with ⟨hc, hcs⟩ | ⟨hc, hcs⟩
  · rcases onPin_cases s d g with ⟨hd, hds⟩ | ⟨hd, hds⟩
    · rw [hcs, hds, State.onPin, State.onPin, setChannel_cfg, setChannel_cfg, if_pos hc, if_pos hd,
        channel_setChannel_ne s _ h.symm, channel_setChannel_ne s _ h, setChannel_comm s _ _ h.symm]
    · rw [hds, hcs]
      exact onPin_of_not_present g hd
  · rw [hcs, onPin_of_not_present f ((sameButChannel_onPin s d g).1 ▸ hc)]

/-- Settles O28: each edge is a pin event's write of its own channel from `TIME`, which no edge changes. -/
theorem edgesOfDifferentChannelsCommute : Obligations.EdgesOfDifferentChannelsCommute := by
  unfold Obligations.EdgesOfDifferentChannelsCommute
  intro s c d i j hcd hi hj
  obtain ⟨f, ⟨hexec, hwrites⟩⟩ := exists_edgeBody hi
  obtain ⟨g, ⟨hexec', _⟩⟩ := exists_edgeBody hj
  have htime : ∀ (e : Index) (body : Channel → Channel), (s.onPin e body).time = s.time := fun e body => by
    obtain ⟨_, htime, _⟩ := sameButChannel_onPin s e body
    exact htime
  refine ⟨_, _, _, hexec s, hexec' _, hexec' s, ?commute, sameButChannel_onPin s c _, ?own⟩
  case commute => rw [hexec, htime, htime, onPin_comm s _ _ hcd]
  case own =>
    rcases channel_onPin_cases s c (f s.time) with heq | heq <;> rw [heq]
    exact hwrites s.time (s.channel c)

/-- The whole channel after its falling edge (R81). -/
theorem Performs.fall_channel {s t : State} {c : Index} (h : Performs [present (.edgeFall c)] s t)
    (hs : captures c s) : t.channel c = { s.channel c with raw := s.time - (s.channel c).riseTs } := by
  obtain ⟨hpresent, hlen⟩ := hs
  obtain ⟨rest, hexec⟩ := performs_present h
  rw [exec_edgeFall_of_present (s := s.consume rest) hpresent] at hexec
  cases hexec
  exact channel_setChannel_self (s.consume rest) c _ hlen

/-- What a presented POLL does: every channel is staged, one `(0, 0)` is responded, and nothing else changes (R83). -/
theorem Performs.poll {s t : State} (h : Performs [present .poll] s t) :
    (∀ c, t.channel c = (s.channel c).stage) ∧ t.channels.length = s.channels.length ∧ t.cfg = s.cfg ∧
      t.time = s.time ∧ t.avg = s.avg ∧ respondedWith [⟨false, 0#32⟩] s t := by
  obtain ⟨rest, hexec⟩ := performs_present h
  cases hexec
  exact ⟨channel_map_stage (s.consume rest), List.length_map _, rfl, rfl, rfl, rfl⟩

/-- Settles O29: the POLL copies the `RAW` that it finds, which the falling edge writes before it or after it. -/
theorem pollRacingFallSeesOldOrNew : Obligations.PollRacingFallSeesOldOrNew := by
  unfold Obligations.PollRacingFallSeesOldOrNew
  intro s c rest hb hp
  have hcap := captures_of_banksOk hb hp
  refine ⟨fun hs => ?fallFirst, fun hs => ?pollFirst⟩
  case fallFirst =>
    obtain ⟨t, hrun, _, hperf⟩ := runN_performs (xs := [present (.edgeFall c)] ++ [present .poll]) hs
    obtain ⟨u, hfall, hpoll⟩ := performs_append_iff.mp hperf
    obtain ⟨hstaged, _⟩ := hpoll.poll
    refine ⟨t, hrun, ?_, ?_⟩ <;> rw [hstaged c, hfall.fall_channel hcap] <;> rfl
  case pollFirst =>
    obtain ⟨t, hrun, _, hperf⟩ := runN_performs (xs := [present .poll] ++ [present (.edgeFall c)]) hs
    obtain ⟨u, hpoll, hfall⟩ := performs_append_iff.mp hperf
    have hcap' : captures c u := hpoll.keeps_captures (List.forall_mem_singleton.mpr rfl) hcap
    obtain ⟨hstaged, _, _, htime, _⟩ := hpoll.poll
    refine ⟨t, hrun, ?_, ?_⟩ <;> rw [hfall.fall_channel hcap', hstaged c, htime] <;> rfl

/-! ### Responses along a run (R9), and durations (R112) -/

/-- The responses of `s` are the first of those of `t`: what the host has observed stays observed. -/
def Observes (s t : State) : Prop := ∃ rs, respondedWith rs s t

theorem Observes.refl (s : State) : Observes s s := ⟨[], (List.append_nil _).symm⟩

theorem Observes.trans {s t u : State} (h : Observes s t) (h' : Observes t u) : Observes s u := by
  obtain ⟨rs, hrs⟩ := h
  obtain ⟨rs', hrs'⟩ := h'
  exact ⟨rs ++ rs', hrs'.trans (hrs ▸ List.append_assoc _ _ _)⟩

/-- An instruction only appends to what has been observed. -/
theorem observes_of_exec {i : Instr} {s t : State} (h : exec i s = .next t) : Observes s t := by
  cases he : encode i with
  | advance d => exact absurd he (encode_ne_advance i d)
  | pin c before after =>
    cases i with
    | edgeRise c | edgeFall c =>
      cases h
      exact onPin_elim (Observes.refl s) fun _ => ⟨[], (List.append_nil _).symm⟩
    | _ => cases he
  | command w =>
    cases hwf : i.wf s.cfg with
    | true =>
      obtain ⟨u, d, hexec, hresp⟩ := exec_responds_of_wf he hwf
      cases h.symm.trans hexec
      exact ⟨_, hresp⟩
    | false =>
      cases h.symm.trans (exec_of_not_wf he hwf)
      exact ⟨[.refused], rfl⟩

/-- So does any input, a RESET included (R9). -/
theorem observes_of_perform {s t : State} {x : Fetched} (h : s.perform x = .next t) : Observes s t := by
  cases x with
  | run i => exact observes_of_exec h
  | refuse _ =>
    cases h
    exact ⟨[.refused], rfl⟩
  | quiet | advance _ | reset =>
    cases h
    exact ⟨[], (List.append_nil _).symm⟩

/-- And so does a sequence of inputs. -/
theorem Performs.observes {xs : List Input} {s t : State} (h : Performs xs s t) : Observes s t := by
  induction h with
  | nil s => exact Observes.refl s
  | @cons _ _ rest s _ _ hx _ ih =>
    have hfirst := observes_of_perform (s := s.consume rest) hx
    exact Observes.trans (s := s) hfirst ih

/-- What a presented RDTIME does: it responds `TIME` and changes nothing else (R111). -/
theorem Performs.rdtime {s t : State} (h : Performs [present .rdtime] s t) :
    t.time = s.time ∧ respondedWith [⟨false, s.time⟩] s t := by
  obtain ⟨rest, hexec⟩ := performs_present h
  cases hexec
  exact ⟨rfl, rfl⟩

/-- Settles O56: the second `TIME` is the first one and the advances between, by `Performs.frame`. -/
theorem rdtimeDifferenceIsDuration : Obligations.RdtimeDifferenceIsDuration := by
  unfold Obligations.RdtimeDifferenceIsDuration
  intro s mid rest hmid hs
  obtain ⟨t, hrun, hrest, hperf⟩ :=
    runN_performs (s := s) (xs := [present .rdtime] ++ (mid ++ [present .rdtime])) (rest := rest) (by simp [hs])
  obtain ⟨u, hfirst, hlater⟩ := performs_append_iff.mp hperf
  obtain ⟨v, hbetween, hsecond⟩ := performs_append_iff.mp hlater
  obtain ⟨hu, hresp⟩ := hfirst.rdtime
  obtain ⟨_, hresp'⟩ := hsecond.rdtime
  obtain ⟨between, hobs⟩ := hbetween.observes
  obtain ⟨_, _, htime⟩ := hbetween.frame hmid
  have hdiff : v.time - s.time = BitVec.ofNat 32 (counts mid) := by
    rw [htime, hu, BitVec.add_comm, BitVec.add_sub_cancel]
  refine ⟨t, s.time, v.time, between, ?run, hrest, ?responses, ?difference⟩
  case run =>
    have hlen : ([present .rdtime] ++ (mid ++ [present .rdtime])).length = mid.length + 2 := by simp
    rwa [hlen] at hrun
  case responses =>
    rw [respondedWith] at *
    simp [hresp', hobs, hresp]
  case difference =>
    rw [hdiff, BitVec.toNat_ofNat]
    exact ⟨rfl, Nat.mod_eq_of_lt⟩

/-! ### What the edges and the clock leave to the host (R42) -/

/-- Every register but `RAW`, `RISE_TS` and `TIME` is as it was, and so is what the host has observed. -/
structure HostView (s t : State) : Prop where
  responses : t.responses = s.responses
  draws : t.draws = s.draws
  offers : t.offers = s.offers
  cfg : t.cfg = s.cfg
  avg : t.avg = s.avg
  length : t.channels.length = s.channels.length
  channel : ∀ c, (t.channel c).staged = (s.channel c).staged ∧ (t.channel c).nval = (s.channel c).nval ∧
    ∀ k, (t.channel c).endpoint k = (s.channel c).endpoint k

theorem HostView.refl (s : State) : HostView s s := ⟨rfl, rfl, rfl, rfl, rfl, rfl, fun _ => ⟨rfl, rfl, fun _ => rfl⟩⟩

theorem HostView.trans {s t u : State} (h : HostView s t) (h' : HostView t u) : HostView s u := by
  refine ⟨h'.responses.trans h.responses, h'.draws.trans h.draws, h'.offers.trans h.offers, h'.cfg.trans h.cfg,
    h'.avg.trans h.avg, h'.length.trans h.length, fun c => ?_⟩
  obtain ⟨hstaged, hnval, hend⟩ := h.channel c
  obtain ⟨hstaged', hnval', hend'⟩ := h'.channel c
  exact ⟨hstaged'.trans hstaged, hnval'.trans hnval, fun k => (hend' k).trans (hend k)⟩

/-- A pin event that writes no more than `RISE_TS` and `RAW` keeps the host's view. -/
theorem hostView_onPin {c : Index} {i : Instr} {body : Word → Channel → Channel} (h : EdgeBody c i body) (s : State) :
    HostView s (s.onPin c (body s.time)) := by
  refine onPin_elim (HostView.refl s) fun _ => ⟨rfl, rfl, rfl, rfl, rfl, List.length_set, fun d => ?_⟩
  rcases channel_setChannel_cases s c d (body s.time (s.channel c)) with heq | ⟨rfl, heq⟩ <;> rw [heq]
  · exact ⟨rfl, rfl, fun _ => rfl⟩
  · rw [h.writes]
    exact ⟨rfl, rfl, fun k => by cases k <;> rfl⟩

/-- An input of a capture agent or of the clock keeps the host's view (R26, R42). -/
theorem hostView_of_perform {s t : State} {x : Input} (hx : isEnv x = true) (h : s.perform x.fetch = .next t) :
    HostView s t := by
  have hedge : ∀ {c : Index} {i : Instr}, i = .edgeRise c ∨ i = .edgeFall c → exec i s = .next t → HostView s t := by
    intro c i hi hexec
    obtain ⟨body, hbody⟩ := exists_edgeBody hi
    cases (hbody.exec_eq s).symm.trans hexec
    exact hostView_onPin hbody s
  have hv := inputView x
  generalize x.fetch = f at h hv
  cases hv with
  | run i =>
    cases i with
    | edgeRise c => exact hedge (.inl rfl) h
    | edgeFall c => exact hedge (.inr rfl) h
    | _ => cases hx
  | quiet _ _ =>
    cases h
    exact HostView.refl s
  | advance d =>
    cases h
    exact ⟨rfl, rfl, rfl, rfl, rfl, rfl, fun _ => ⟨rfl, rfl, fun _ => rfl⟩⟩
  | refuse _ _ | reset _ => cases hx

/-- A sequence of them keeps it. -/
theorem Performs.hostView {xs : List Input} {s t : State} (h : Performs xs s t) (hxs : ∀ x ∈ xs, isEnv x = true) :
    HostView s t := by
  induction h with
  | nil s => exact HostView.refl s
  | @cons _ _ rest s _ _ hx _ ih =>
    obtain ⟨hnow, hlater⟩ := List.forall_mem_cons.mp hxs
    have hconsume : HostView s (s.consume rest) := ⟨rfl, rfl, rfl, rfl, rfl, rfl, fun _ => ⟨rfl, rfl, fun _ => rfl⟩⟩
    exact hconsume.trans ((hostView_of_perform hnow hx).trans (ih hlater))
/-! ### The value of NORM (R97, R105) -/

/-- Two channels with the same endpoints are ordered alike and normalize alike. -/
theorem Channel.normalized_congr {a b : Channel} (h : ∀ k, a.endpoint k = b.endpoint k) :
    a.ordered = b.ordered ∧ ∀ m raw, a.normalized m raw = b.normalized m raw := by
  have hlow : a.epLow = b.epLow := h .low
  have hcenter : a.epCenter = b.epCenter := h .center
  have hhigh : a.epHigh = b.epHigh := h .high
  constructor
  · rw [Channel.ordered, Channel.ordered, hlow, hcenter, hhigh]
  · intro m raw
    rw [Channel.normalized, Channel.normalized, hlow, hcenter, hhigh]

/-- With ordered endpoints the normalized value lies in [-100, 100] (R105). -/
theorem Channel.normalized_bounds {ch : Channel} (ho : ch.ordered = true) (m : NormRound) (raw : Word) :
    -100 ≤ ch.normalized m raw ∧ ch.normalized m raw ≤ 100 := by
  obtain ⟨hLC, hCH⟩ := (Channel.ordered_iff ch).mp ho
  obtain ⟨_, hrange⟩ := normalizeStaysInRange m raw.toNat _ _ _ hLC hCH
  exact hrange

/-- So `NVAL` holds it (R97). -/
theorem toInt_ofInt_normalized {ch : Channel} (ho : ch.ordered = true) (m : NormRound) (raw : Word) :
    (BitVec.ofInt 8 (ch.normalized m raw)).toInt = ch.normalized m raw := by
  obtain ⟨hlow, hhigh⟩ := Channel.normalized_bounds ho m raw
  rw [BitVec.toInt_ofInt, Int.bmod_eq_of_le] <;> norm_num <;> omega

/-- And its sign extension is the response (R59, R97). -/
theorem signExtend_ofInt_normalized {ch : Channel} (ho : ch.ordered = true) (m : NormRound) (raw : Word) :
    (BitVec.ofInt 8 (ch.normalized m raw)).signExtend 32 = BitVec.ofInt 32 (ch.normalized m raw) := by
  rw [BitVec.signExtend, toInt_ofInt_normalized ho]

/-- What a presented NORM of a channel with ordered endpoints does (R97). -/
theorem Performs.norm {s t : State} {c : Index} (h : Performs [present (.norm c)] s t)
    (hc : c.toNat < s.cfg.nch) (hlen : s.channels.length = s.cfg.nch) (ho : (s.channel c).ordered = true) :
    t.cfg = s.cfg ∧ t.time = s.time ∧ t.avg = s.avg ∧ t.channels.length = s.channels.length ∧
      t.channel c = { s.channel c with
        nval := BitVec.ofInt 8 ((s.channel c).normalized s.cfg.normRound (s.channel c).staged) } ∧
      (∀ d, d ≠ c → t.channel d = s.channel d) ∧
      respondedWith [⟨false, BitVec.ofInt 32 ((s.channel c).normalized s.cfg.normRound (s.channel c).staged)⟩] s t := by
  obtain ⟨rest, hexec⟩ := performs_present h
  rw [exec_norm_of_ordered (s := s.consume rest) hc ho] at hexec
  cases hexec
  refine ⟨rfl, rfl, rfl, List.length_set, channel_setChannel_self (s.consume rest) c _ (hlen ▸ hc),
    fun d hd => channel_setChannel_ne (s.consume rest) _ hd, ?_⟩
  rw [← signExtend_ofInt_normalized ho]
  rfl

/-- What a presented RDNV does to the responses (R99). -/
theorem Performs.rdnv {s t : State} {c : Index} (h : Performs [present (.rdnv c)] s t) (hc : c.toNat < s.cfg.nch) :
    respondedWith [⟨false, (s.channel c).nval.signExtend 32⟩] s t := by
  obtain ⟨rest, hexec⟩ := performs_present h
  cases (exec_rdnv_of_lt (s := s.consume rest) hc).symm.trans hexec
  rfl

/-- POLL, NORM c, RDNV c with edges and advances between them (R42). -/
theorem Performs.poll_norm_rdnv {s t : State} {c : Index} {e₁ e₂ : List Input}
    (h : Performs ([present .poll] ++ (e₁ ++ ([present (.norm c)] ++ (e₂ ++ [present (.rdnv c)])))) s t)
    (hc : c.toNat < s.cfg.nch) (hlen : s.channels.length = s.cfg.nch) (ho : (s.channel c).ordered = true)
    (he₁ : ∀ x ∈ e₁, isEnv x = true) (he₂ : ∀ x ∈ e₂, isEnv x = true) :
    respondedWith
      [⟨false, 0#32⟩,
       ⟨false, BitVec.ofInt 32 ((s.channel c).normalized s.cfg.normRound (s.channel c).raw)⟩,
       ⟨false, BitVec.ofInt 32 ((s.channel c).normalized s.cfg.normRound (s.channel c).raw)⟩] s t := by
  obtain ⟨s₁, hpoll, h⟩ := performs_append_iff.mp h
  obtain ⟨s₂, henv₁, h⟩ := performs_append_iff.mp h
  obtain ⟨s₃, hnorm, h⟩ := performs_append_iff.mp h
  obtain ⟨s₄, henv₂, hrdnv⟩ := performs_append_iff.mp h
  obtain ⟨hstage, hlen₁, hcfg₁, _, _, hresp₁⟩ := hpoll.poll
  have hview₁ := henv₁.hostView he₁
  have hview₂ := henv₂.hostView he₂
  obtain ⟨hstaged₂, _, hend₂⟩ := hview₁.channel c
  have hcfg₂ : s₂.cfg = s.cfg := hview₁.cfg.trans hcfg₁
  have hstaged : (s₂.channel c).staged = (s.channel c).raw := by
    rw [hstaged₂, hstage c]
    rfl
  have hend : ∀ k, (s₂.channel c).endpoint k = (s.channel c).endpoint k := fun k => by
    rw [hend₂ k, hstage c]
    cases k <;> rfl
  obtain ⟨hordered, hnormalized⟩ := Channel.normalized_congr hend
  obtain ⟨hcfg₃, _, _, _, hchannel, _, hresp₃⟩ :=
    hnorm.norm (hcfg₂ ▸ hc) (by rw [hview₁.length, hlen₁, hlen, hcfg₂]) (hordered.trans ho)
  obtain ⟨_, hnval, _⟩ := hview₂.channel c
  have hresp₄ := hrdnv.rdnv (hview₂.cfg.trans (hcfg₃.trans hcfg₂) ▸ hc)
  rw [hnval, hchannel, hstaged, hcfg₂, hnormalized, signExtend_ofInt_normalized ho] at hresp₄
  rw [hstaged, hcfg₂, hnormalized] at hresp₃
  rw [respondedWith] at *
  rw [hresp₄, hview₂.responses, hresp₃, hview₁.responses, hresp₁]
  simp

/-- Settles O15: edges and advances by `Performs.hostView`, the three commands among them by
`Performs.poll_norm_rdnv`. -/
theorem pollNormRdnvSeesPolledWidth : Obligations.PollNormRdnvSeesPolledWidth := by
  unfold Obligations.PollNormRdnvSeesPolledWidth
  refine ⟨fun s env rest hs henv => ?environment, fun s c e₁ e₂ rest hb hc ho he₁ he₂ hs => ?commands⟩
  case environment =>
    obtain ⟨t, hrun, hrest, hperf⟩ := runN_performs hs
    have hview := hperf.hostView henv
    exact ⟨t, hrun, hrest, hview.responses, hview.draws, hview.offers, hview.cfg, hview.avg, hview.channel⟩
  case commands =>
    obtain ⟨_, hlen, _⟩ := hb
    obtain ⟨t, hrun, hrest, hperf⟩ := runN_performs (s := s) (rest := rest)
      (xs := [present .poll] ++ (e₁ ++ ([present (.norm c)] ++ (e₂ ++ [present (.rdnv c)])))) (by simp [hs])
    refine ⟨t, ?_, hrest, hperf.poll_norm_rdnv hc hlen ho he₁ he₂⟩
    convert hrun using 2
    simp only [List.length_append, List.length_cons, List.length_nil]
    omega

end Sys2Proof.Machine


/-! ## The mapper: NORM, records, the poll step, and the shape of `normalize` (R44, R62, R96 to R109) -/

namespace Sys2Proof.Machine

/-! ### NORM (R97, R98, R151) -/

/-- Storing `NVAL` writes that register of its channel. -/
theorem channel_storeNorm {s : State} {c : Index} (hb : s.banksOk) (h : c.toNat < s.cfg.nch) (v : NormWord) :
    (s.storeNorm c v).channel c = { s.channel c with nval := v } :=
  channel_setChannel_of_lt hb h _

/-- Settles O30: ordered endpoints by `exec_norm_of_ordered`, whose value `NVAL` holds; the others by
`exec_norm_of_unordered`. -/
theorem normWritesNormalizedValue : Obligations.NormWritesNormalizedValue := by
  unfold Obligations.NormWritesNormalizedValue
  refine ⟨fun w hw => decode_of_opField .norm hw,
    fun s c => ⟨fun hb h ho => ?ordered, fun hb h ho => ?unordered, fun h => ?refused⟩⟩
  case ordered =>
    exact ⟨_, _, exec_norm_of_ordered h ho, toInt_ofInt_normalized ho _ _, channel_storeNorm hb h _,
      sameButChannel_setChannel s c _, rfl, rfl, rfl, rfl⟩
  case unordered =>
    exact ⟨_, _, exec_norm_of_unordered h ho, channel_storeNorm (s := s.countDraw) hb h _,
      sameButChannel_setChannel s.countDraw c _, rfl, rfl⟩
  case refused => exact exec_refused_of_channel_ge rfl rfl h

/-- Settles O31: the stored value is a function of the endpoints, `STAGED[c]` and `NORM_ROUND`. -/
theorem normReadsOnlyStagedAndEndpoints : Obligations.NormReadsOnlyStagedAndEndpoints := by
  unfold Obligations.NormReadsOnlyStagedAndEndpoints
  intro s₁ s₂ c hb₁ hb₂ h hch hround ho hstaged hend
  obtain ⟨hordered, hnormalized⟩ := Channel.normalized_congr hend
  have h₂ : c.toNat < s₂.cfg.nch := hch ▸ h
  have hvalue : (s₁.channel c).normalized s₁.cfg.normRound (s₁.channel c).staged =
      (s₂.channel c).normalized s₂.cfg.normRound (s₂.channel c).staged := by rw [hnormalized, hround, hstaged]
  refine ⟨_, _, _, exec_norm_of_ordered h ho, exec_norm_of_ordered h₂ (hordered ▸ ho), ?_, rfl, ?_⟩
  · rw [channel_storeNorm hb₁ h, channel_storeNorm hb₂ h₂, hvalue]
  · rw [hvalue]
    rfl

/-! ### Loading a record (R62, R100, R104) -/

/-- A presented command that stores `v` in endpoint `k` of channel `c`: an LDEP or a WREP. -/
theorem Performs.storeEndpoint {s t : State} {i : Instr} {c : Index} {k : Endpoint} {v : Half}
    (h : Performs [present i] s t)
    (hi : ∀ u : State, c.toNat < u.cfg.nch → exec i u = .next (u.storeEndpoint c k v)) (hb : s.banksOk)
    (hc : c.toNat < s.cfg.nch) :
    t.banksOk ∧ sameButChannel c s t ∧ t.channel c = (s.channel c).setEndpoint k v := by
  obtain ⟨rest, hexec⟩ := performs_present h
  cases (hi (s.consume rest) hc).symm.trans hexec
  have hbanks : ((s.consume rest).storeEndpoint c k v).banksOk := banksOk_setChannel (banksOk_consume hb rest) c _
  exact ⟨hbanks, sameButChannel_storeEndpoint (s.consume rest) c k v,
    channel_storeEndpoint (s := s.consume rest) hb hc k v⟩

/-- What leaves all but a channel leaves the configuration. -/
theorem sameButChannel.cfg {c : Index} {s t : State} (h : sameButChannel c s t) : t.cfg = s.cfg := by
  obtain ⟨hcfg, _⟩ := h
  exact hcfg

/-- What is left but channel `c` by two runs is left by both. -/
theorem sameButChannel.trans {c : Index} {s t u : State} (h : sameButChannel c s t) (h' : sameButChannel c t u) :
    sameButChannel c s u := by
  obtain ⟨hcfg, htime, havg, hlen, hother⟩ := h
  obtain ⟨hcfg', htime', havg', hlen', hother'⟩ := h'
  exact ⟨hcfg'.trans hcfg, htime'.trans htime, havg'.trans havg, hlen'.trans hlen,
    fun d hd => (hother' d hd).trans (hother d hd)⟩

/-- Three stores, one per endpoint, leave the three values and no other register changed. -/
theorem runN_store_record {s : State} {c : Index} {i j k : Instr} {l m h : Half} {rest : List Input}
    (hi : ∀ u : State, c.toNat < u.cfg.nch → exec i u = .next (u.storeEndpoint c .low l))
    (hj : ∀ u : State, c.toNat < u.cfg.nch → exec j u = .next (u.storeEndpoint c .center m))
    (hk : ∀ u : State, c.toNat < u.cfg.nch → exec k u = .next (u.storeEndpoint c .high h))
    (hb : s.banksOk) (hc : c.toNat < s.cfg.nch) (hs : s.inputs = [present i, present j, present k] ++ rest) :
    ∃ t, runN 3 s = .next t ∧ t.inputs = rest ∧ sameButChannel c s t ∧
      t.channel c = { s.channel c with epLow := l, epCenter := m, epHigh := h } := by
  obtain ⟨t, hrun, hrest, hperf⟩ := runN_performs (xs := [present i] ++ ([present j] ++ [present k])) hs
  obtain ⟨u, hfirst, hperf⟩ := performs_append_iff.mp hperf
  obtain ⟨v, hsecond, hthird⟩ := performs_append_iff.mp hperf
  obtain ⟨hbu, hsame, hlow⟩ := hfirst.storeEndpoint hi hb hc
  obtain ⟨hbv, hsame', hcenter⟩ := hsecond.storeEndpoint hj hbu (hsame.cfg ▸ hc)
  have hboth := hsame.trans hsame'
  obtain ⟨_, hlast, hhigh⟩ := hthird.storeEndpoint hk hbv (hboth.cfg ▸ hc)
  refine ⟨t, hrun, hrest, hboth.trans hlast, ?_⟩
  rw [hhigh, hcenter, hlow]
  rfl

/-- LDEP's value with the bounds and the default written out, and within the bounds either way (R100, R103). -/
theorem loadedEndpoint_eq (k : Endpoint) (u : Half) :
    loadedEndpoint k u = (if 500 ≤ u.toNat ∧ u.toNat ≤ 2500 then u else epDefault k) ∧
      500 ≤ (loadedEndpoint k u).toNat ∧ (loadedEndpoint k u).toNat ≤ 2500 := by
  rcases loadedEndpoint_cases k u with ⟨hlow, hhigh, heq⟩ | ⟨hbad, heq⟩ <;> rw [heq]
  · exact ⟨(if_pos ⟨hlow, hhigh⟩).symm, hlow, hhigh⟩
  · exact ⟨(if_neg hbad).symm, by cases k <;> decide⟩

/-- Settles O36: three stores each, of `loadedEndpoint`'s values or of the operands. -/
theorem recordLoadsPerEndpoint : Obligations.RecordLoadsPerEndpoint := by
  unfold Obligations.RecordLoadsPerEndpoint
  refine fun s c l m h rest hb hc => ⟨fun hs => ?ldep3, fun hs => ?wrep3⟩
  case ldep3 =>
    obtain ⟨t, hrun, hrest, hsame, hchannel⟩ := runN_store_record (fun _ => exec_ldep_of_lt .low l)
      (fun _ => exec_ldep_of_lt .center m) (fun _ => exec_ldep_of_lt .high h) hb hc hs
    obtain ⟨hl, hlbound⟩ := loadedEndpoint_eq .low l
    obtain ⟨hm, hmbound⟩ := loadedEndpoint_eq .center m
    obtain ⟨hh, hhbound⟩ := loadedEndpoint_eq .high h
    refine ⟨t, hrun, hrest, hsame, ?_, fun k => ?_⟩
    · rw [hchannel, hl, hm, hh]
      rfl
    · rw [hchannel]
      cases k with
      | low => exact hlbound
      | center => exact hmbound
      | high => exact hhbound
  case wrep3 =>
    exact runN_store_record (fun _ => exec_wrep_of_lt .low l) (fun _ => exec_wrep_of_lt .center m)
      (fun _ => exec_wrep_of_lt .high h) hb hc hs

/-! ### The poll step (R44, R62) -/

/-- What NORM of every channel below `n` has done since `s`: the value of the staged width of each stored and responded,
in the order of the channels, and nothing else. -/
structure NormalizedUpTo (n : Nat) (s t : State) : Prop where
  cfg : t.cfg = s.cfg
  time : t.time = s.time
  avg : t.avg = s.avg
  length : t.channels.length = s.channels.length
  done : ∀ c : Index, c.toNat < n → t.channel c = { s.channel c with
    nval := BitVec.ofInt 8 ((s.channel c).normalized s.cfg.normRound (s.channel c).staged) }
  left : ∀ c : Index, n ≤ c.toNat → t.channel c = s.channel c
  responses : respondedWith ((List.range n).map fun m =>
    ⟨false, BitVec.ofInt 32 ((s.channel (BitVec.ofNat 4 m)).normalized s.cfg.normRound
      (s.channel (BitVec.ofNat 4 m)).staged)⟩) s t

/-- NORM of the channels in order, one after the other (R62). -/
theorem Performs.norms {n : Nat} {s t : State}
    (h : Performs ((List.range n).map fun c => present (.norm (BitVec.ofNat 4 c))) s t) (hb : s.banksOk)
    (hn : n ≤ s.cfg.nch) (ho : ∀ c : Index, c.toNat < s.cfg.nch → (s.channel c).ordered = true) :
    NormalizedUpTo n s t := by
  obtain ⟨hwf, hlen, _⟩ := hb
  obtain ⟨_, hnch⟩ := Config.nch_le_of_wf hwf
  induction n generalizing t with
  | zero =>
    cases h
    exact ⟨rfl, rfl, rfl, rfl, fun c hc => absurd hc (Nat.not_lt_zero _), fun _ _ => rfl, (List.append_nil _).symm⟩
  | succ n ih =>
    rw [List.range_succ, List.map_append] at h
    obtain ⟨u, hbefore, hlast⟩ := performs_append_iff.mp h
    have hu := ih hbefore (by omega)
    have hidx : (BitVec.ofNat 4 n).toNat = n := by
      rw [BitVec.toNat_ofNat]
      omega
    have hkept := hu.left (BitVec.ofNat 4 n) hidx.ge
    have hlt : (BitVec.ofNat 4 n).toNat < s.cfg.nch := by omega
    obtain ⟨hcfg, htime, havg, hlength, hchannel, hother, hresp⟩ :=
      hlast.norm (hu.cfg ▸ hlt) (by rw [hu.length, hlen, hu.cfg]) (by rw [hkept]; exact ho _ hlt)
    rw [hkept, hu.cfg] at hchannel hresp
    refine ⟨hcfg.trans hu.cfg, htime.trans hu.time, havg.trans hu.avg, hlength.trans hu.length, fun c hc => ?done,
      fun c hc => ?left, ?responses⟩
    case done =>
      by_cases hcn : c = BitVec.ofNat 4 n
      · rw [hcn, hchannel]
      · have hne := toNat_ne_of_ne hcn
        rw [hother c hcn, hu.done c (by omega)]
    case left =>
      have hcn : c ≠ BitVec.ofNat 4 n := fun e => by
        rw [e, hidx] at hc
        omega
      rw [hother c hcn, hu.left c (by omega)]
    case responses =>
      have hresp' := hu.responses
      rw [respondedWith] at *
      rw [hresp, hresp', List.range_succ, List.map_append, List.append_assoc]
      rfl

/-- Settles O44: POLL by `Performs.poll`, then the NORMs in order by `Performs.norms`. -/
theorem tickpollNormalizesEveryChannel : Obligations.TickpollNormalizesEveryChannel := by
  unfold Obligations.TickpollNormalizesEveryChannel
  intro s rest hb ho hs
  obtain ⟨t, hrun, hrest, hperf⟩ := runN_performs hs
  obtain ⟨u, hpoll, hnorms⟩ := performs_append_iff (xs := [present .poll]).mp hperf
  obtain ⟨hstage, hlength, hcfg, htime, havg, hresp⟩ := hpoll.poll
  have hend : ∀ c k, (u.channel c).endpoint k = (s.channel c).endpoint k := fun c k => by
    rw [hstage c]
    cases k <;> rfl
  have hnormalized : ∀ c, (u.channel c).normalized u.cfg.normRound (u.channel c).staged =
      (s.channel c).normalized s.cfg.normRound (s.channel c).raw := fun c => by
    obtain ⟨_, heq⟩ := Channel.normalized_congr (hend c)
    rw [heq, hcfg, hstage c]
    rfl
  have hbu : u.banksOk := by
    obtain ⟨hwf, hnch, hnfilt⟩ := hb
    exact ⟨hcfg ▸ hwf, by rw [hlength, hnch, hcfg], by rw [havg, hnfilt, hcfg]⟩
  have hall := hnorms.norms hbu (hcfg ▸ le_rfl) fun c hc => by
    obtain ⟨heq, _⟩ := Channel.normalized_congr (hend c)
    exact heq.trans (ho c (hcfg ▸ hc))
  have hcount : (tickpoll s.cfg).length = s.cfg.nch + 1 := by simp [tickpoll]
  refine ⟨t, hcount ▸ hrun, hrest, hall.time.trans htime, hall.avg.trans havg, fun c hc => ?channel, ?responses⟩
  case channel =>
    rw [hall.done c hc, hnormalized, hstage c]
    rfl
  case responses =>
    have hresp' := hall.responses
    simp only [hnormalized] at hresp'
    rw [respondedWith] at *
    rw [hresp', hresp, List.append_assoc]
    rfl

/-! ### The unsigned form (R96) -/

/-- The floor of a quotient of naturals is their natural quotient. -/
theorem floor_natCast_div (a b : Nat) : ((a : Rat) / (b : Rat)).floor = ((a / b : Nat) : Int) :=
  Rat.floor_natCast_div_natCast a b

/-- The quotient from the center on as one of naturals. -/
theorem quot_eq_natCast_div {raw L C H : Nat} (hCH : C < H) (h : C ≤ raw) :
    quot raw L C H = (((min raw H - C) * 100 : Nat) : Rat) / ((H - C : Nat) : Rat) := by
  rw [quot_of_ge h]
  push_cast [Nat.cast_sub (le_min h hCH.le), Nat.cast_sub hCH.le]
  rfl

/-- The quotient below the center as -100 and one of naturals. -/
theorem quot_eq_sub_natCast_div {raw L C H : Nat} (hLC : L < C) (h : raw < C) :
    quot raw L C H = ((-100 : Int) : Rat) + (((max raw L - L) * 100 : Nat) : Rat) / ((C - L : Nat) : Rat) := by
  have hspan : (C : Rat) - L ≠ 0 := sub_ne_zero.mpr (by exact_mod_cast hLC.ne')
  rw [quot_of_lt h]
  push_cast [Nat.cast_sub (le_max_right raw L), Nat.cast_sub hLC.le]
  field_simp
  ring

/-- Settles O41: the quotient of each half is one of naturals, whose floor is the natural quotient. -/
theorem floorFormIsNormalize : Obligations.FloorFormIsNormalize := by
  unfold Obligations.FloorFormIsNormalize
  refine fun raw L C H hLC hCH hH => ⟨fun h => ⟨?upper, by omega⟩, fun h => ⟨?lower, by omega⟩⟩
  case upper =>
    rw [normalizeWidth, quot_eq_natCast_div hCH h]
    exact floor_natCast_div _ _
  case lower =>
    rw [normalizeWidth, quot_eq_sub_natCast_div hLC h, ← floor_natCast_div]
    exact Int.floor_intCast_add (R := Rat) _ _

/-! ### Corner cases and resolution (R97, R109) -/
/-- One count below the center the quotient is one unit of the lower span below zero. -/
theorem quot_just_below_center {L C H : Nat} (hLC : L < C) : quot (C - 1) L C H = -(100 / ((C - L : Nat) : Rat)) := by
  have hspan : (C : Rat) - L ≠ 0 := sub_ne_zero.mpr (by exact_mod_cast hLC.ne')
  rw [quot_of_lt (by omega), max_eq_left (by omega)]
  push_cast [Nat.cast_sub hLC.le, Nat.cast_sub (show 1 ≤ C by omega)]
  field_simp
  ring

/-- The floor is the integer at most one below. -/
theorem floor_eq_of_between {q : Rat} {n : Int} (hlow : (n : Rat) ≤ q) (hhigh : q < (n : Rat) + 1) : q.floor = n :=
  (floor_eq q).trans (Int.floor_eq_iff.mpr ⟨hlow, hhigh⟩)

/-- The roundings of a small negative number: `floor` goes to -1 and `trunc` to 0 (R95). -/
theorem nrRound_neg_of_lt_one {q : Rat} (h0 : 0 < q) (h1 : q < 1) :
    nrRound .floor (-q) = -1 ∧ nrRound .trunc (-q) = 0 := by
  constructor
  · exact floor_eq_of_between (by push_cast; linarith) (by push_cast; linarith)
  · have hfloor : q.floor = 0 := floor_eq_of_between (by push_cast; linarith) (by push_cast; linarith)
    rw [nrRound, truncInt_neg, truncInt_of_nonneg h0.le, hfloor, neg_zero]

/-- NEAREST of it goes to 0 below one half, and to -1 from one half on (R95). -/
theorem nrRound_nearest_neg {q : Rat} (h0 : 0 < q) (h1 : q < 1) :
    nrRound .nearest (-q) = if q < 1 / 2 then 0 else -1 := by
  rw [nrRound, nearestAway_neg, nearestAway, if_pos h0.le]
  split_ifs with hhalf
  · rw [neg_eq_zero]
    exact floor_eq_of_between (by push_cast; linarith) (by push_cast; linarith)
  · rw [neg_inj]
    exact floor_eq_of_between (by push_cast; linarith) (by push_cast; linarith)

/-- Settles O42: one count below the center is `-100 / (C - L)`; above a span of 1 every width is saturated. -/
theorem normalizeJustBelowCenter : Obligations.NormalizeJustBelowCenter := by
  unfold Obligations.NormalizeJustBelowCenter
  intro L C H hLC hCH
  have hpos : (0 : Rat) < ((C - L : Nat) : Rat) := by exact_mod_cast Nat.sub_pos_of_lt hLC
  have h0 : 0 < 100 / ((C - L : Nat) : Rat) := by positivity
  have hunit : 100 < C - L → 100 / ((C - L : Nat) : Rat) < 1 := fun h => by
    rw [div_lt_one hpos]
    exact_mod_cast h
  have hhalf : 100 / ((C - L : Nat) : Rat) < 1 / 2 ↔ 200 < C - L := by
    rw [div_lt_div_iff₀ hpos two_pos]
    norm_cast
    omega
  simp only [normalizeWidth, quot_just_below_center hLC]
  refine ⟨fun h => nrRound_neg_of_lt_one h0 (hunit h), fun h => ?nearZero, fun h h' => ?nearOne,
    fun hspan m raw hraw => ?spanOne⟩
  case nearZero => rw [nrRound_nearest_neg h0 (hunit (by omega)), if_pos (hhalf.mpr h)]
  case nearOne => rw [nrRound_nearest_neg h0 (hunit h), if_neg (mt hhalf.mp (by omega))]
  case spanOne =>
    split_ifs with hC
    · rw [hC]
      exact normalizeWidth_center m hCH
    · exact normalizeWidth_of_high_le m hCH (by omega)

/-- Settles O43: the difference of two quotients of one denominator; the default endpoints by `floorFormIsNormalize`. -/
theorem normalizeResolution : Obligations.NormalizeResolution := by
  unfold Obligations.NormalizeResolution
  refine ⟨fun raw L C H _ _ hC hH => ?count, fun raw => ⟨fun hC hH => ?upper, fun hL hC => ?lower⟩⟩
  case count =>
    rw [quot_of_ge hC, quot_of_ge (by omega), min_eq_left hH, min_eq_left hH.le]
    push_cast
    ring
  case upper =>
    obtain ⟨hupper, _⟩ := floorFormIsNormalize raw 1000 1500 2000 (by norm_num) (by norm_num) (by norm_num)
    obtain ⟨hform, _⟩ := hupper hC
    rw [hform]
    omega
  case lower =>
    obtain ⟨_, hlower⟩ := floorFormIsNormalize raw 1000 1500 2000 (by norm_num) (by norm_num) (by norm_num)
    obtain ⟨hform, _⟩ := hlower (by omega)
    rw [hform]
    omega

end Sys2Proof.Machine
